-- ==== Sys2Proof/Word.lean ====
section
/-! DEFINITION. The bit-vector types of the block: an encoded byte and the 7-bit group it carries
(spec/00_scope.md R5, R7). -/

namespace Sys2Proof

/-- One byte of OUTBUF or INSEQ (R5: a byte is 8 bits). -/
abbrev Byte := BitVec 8

/-- The 7 payload bits of one encoded byte (R5, R9). -/
abbrev Group := BitVec 7

end Sys2Proof
end

