-- ==== Sys2Proof/Syntax.lean ====
section
/-! DEFINITION. The eight commands, one constructor per row of spec/opcode_table.json, and the request that
carries one (spec/30_encoding.md R50 to R52, spec/10_state.md R13). -/

namespace Sys2Proof

/-- A command with the operand it reads (R51). A 32-bit operand is typed 32 bits wide (R15); a cursor
offset is an unsigned index (R13), a natural number bounded by `Instr.wf`. -/
inductive Instr where
  /-- `000` VENC32 (R80). -/
  | venc32 (v : BitVec 32)
  /-- `001` VENC64 (R90). -/
  | venc64 (v : BitVec 64)
  /-- `010` VDEC32 (R82). -/
  | vdec32 (off : Nat)
  /-- `011` VDEC64 (R92). -/
  | vdec64 (off : Nat)
  /-- `100` ZZENC32 (R75). -/
  | zzenc32 (n : BitVec 32)
  /-- `101` ZZENC64 (R76). -/
  | zzenc64 (n : BitVec 64)
  /-- `110` ZZDEC32 (R77). -/
  | zzdec32 (u : BitVec 32)
  /-- `111` ZZDEC64 (R78). -/
  | zzdec64 (u : BitVec 64)
  deriving DecidableEq, Repr

/-- The request triple `(op, val, off)` on the request port (R13, R50). -/
structure Request where
  op  : BitVec 3
  val : BitVec 64
  off : Nat
  deriving DecidableEq, Repr

end Sys2Proof
end

