-- ==== Sys2Proof/WellFormed.lean ====
section
/-! DEFINITION. What fits the ports: a cursor offset is an unsigned OFFW-bit integer (spec/10_state.md R13,
spec/00_scope.md R6). No other check exists: every op code and every operand value is legal
(spec/30_encoding.md R60). -/

namespace Sys2Proof

/-- The request's offset fits `req_off[OFFW-1:0]` (R13). -/
def Request.wf (offw : Nat) (r : Request) : Bool :=
  decide (r.off < 2 ^ offw)

/-- The command's operand fits its port: an offset operand is below 2^OFFW (R13); a value operand is
typed by its width and always fits. -/
def Instr.wf (offw : Nat) : Instr → Bool
  | .venc32 _ => true
  | .venc64 _ => true
  | .vdec32 off => decide (off < 2 ^ offw)
  | .vdec64 off => decide (off < 2 ^ offw)
  | .zzenc32 _ => true
  | .zzenc64 _ => true
  | .zzdec32 _ => true
  | .zzdec64 _ => true

end Sys2Proof
end

