-- ==== Sys2Proof/Decode.lean ====
section
/-! DEFINITION. From a request to a command and back (spec/30_encoding.md R50 to R52, R60), and the command
written as one word, op code lowest (log 8). -/

namespace Sys2Proof

/-- The 32-bit operand on the 64-bit value bus: `req_val[31:0]`, the upper half ignored (R15, R52). -/
def operand32 (val : BitVec 64) : BitVec 32 :=
  val.setWidth 32

/-- The command a request stands for. The op code is `{unit, dir, w64}` (R50); all eight values are
assigned (R51, R60), so no request is rejected. -/
def decode (r : Request) : Instr :=
  match r.op.getLsbD 2, r.op.getLsbD 1, r.op.getLsbD 0 with
  | false, false, false => .venc32 (operand32 r.val)
  | false, false, true  => .venc64 r.val
  | false, true,  false => .vdec32 r.off
  | false, true,  true  => .vdec64 r.off
  | true,  false, false => .zzenc32 (operand32 r.val)
  | true,  false, true  => .zzenc64 r.val
  | true,  true,  false => .zzdec32 (operand32 r.val)
  | true,  true,  true  => .zzdec64 r.val

/-- The request the host issues for a command. Fields the command does not read, and the upper half of
the value bus for a 32-bit operand, are ignored by the core (R13, R15); the encoder drives them zero
(log 8). -/
def encode : Instr → Request
  | .venc32 v  => ⟨0b000#3, v.setWidth 64, 0⟩
  | .venc64 v  => ⟨0b001#3, v, 0⟩
  | .vdec32 o  => ⟨0b010#3, 0#64, o⟩
  | .vdec64 o  => ⟨0b011#3, 0#64, o⟩
  | .zzenc32 n => ⟨0b100#3, n.setWidth 64, 0⟩
  | .zzenc64 n => ⟨0b101#3, n, 0⟩
  | .zzdec32 u => ⟨0b110#3, u.setWidth 64, 0⟩
  | .zzdec64 u => ⟨0b111#3, u, 0⟩

/-- A command as one word (R50): bits 2..0 the op code, bits 66..3 `req_val`, bits 67 and up `req_off`
(the order is log 8's). -/
def requestOfWord (w : Nat) : Request :=
  { op := BitVec.ofNat 3 w, val := BitVec.ofNat 64 (w / 2 ^ 3), off := w / 2 ^ 67 }

/-- The word of a request: the inverse of `requestOfWord`. -/
def wordOfRequest (r : Request) : Nat :=
  r.op.toNat + r.val.toNat * 2 ^ 3 + r.off * 2 ^ 67

/-- Why a command word is not read. -/
inductive DecodeError where
  /-- Fewer than 3 bits: there is no room for `req_op[2:0]` (R50). -/
  | noOpCode
  /-- The number has bits above the word's own width. -/
  | strayBits
  deriving DecidableEq, Repr

/-- A command word of `nbits` bits (bits above them are 0) read as a command, or rejected by name. -/
def decodeWord (nbits w : Nat) : Except DecodeError Instr :=
  if nbits < 3 then .error .noOpCode
  else if 2 ^ nbits ≤ w then .error .strayBits
  else .ok (decode (requestOfWord w))

/-- The command the decoder reads from a row's bits as spec/opcode_table.json numbers them. -/
def decodeTableWord (nbits w : Nat) : Option Instr :=
  match decodeWord nbits w with
  | .ok i => some i
  | .error _ => none

end Sys2Proof
end

