-- ==== Sys2Proof/Config.lean ====
section
/-! DEFINITION. What an implementation fixes, and the free values: constants without a body, so that no
proof can see what they are (spec/00_scope.md R5, R6; spec/93_implementation_defined.md U5, U8, U9). -/

namespace Sys2Proof.Config

/-- N(32): the most bytes one encoded 32-bit value takes (R5). -/
abbrev maxBytes32 : Nat := 5

/-- N(64): the most bytes one encoded 64-bit value takes (R5). -/
abbrev maxBytes64 : Nat := 10

/-- How far OFFW exceeds 1. R6 leaves OFFW open: no value is chosen (log 1). -/
opaque offwBeyondOne : Nat

/-- OFFW of the machine `State.reset` describes: at least 1, otherwise open (R6, D9, log 1). -/
def offw : Nat := offwBeyondOne + 1

/-- The level of `rsp_status` at an instant where no rule defines it (R21, U9, log 7). -/
opaque freeRspStatus : Nat → BitVec 2

/-- The level of `rsp_val` at an instant where no rule defines it (R14, U8, U9, log 7). -/
opaque freeRspVal : Nat → BitVec 64

/-- The level of `rsp_off` at an instant where no rule defines it; read modulo 2^OFFW (U8, U9, log 7). -/
opaque freeRspOff : Nat → Nat

/-- The level of `rsp_cnt` at an instant where no rule defines it (U8, U9, log 7). -/
opaque freeRspCnt : Nat → BitVec 4

/-- The level of `ap_byte` while `ap_valid` is 0 (R21, U9, log 7). -/
opaque freeApByte : Nat → Byte

/-- The level of `rd_idx` while `rd_valid` is 0; read modulo 2^OFFW (R21, U9, log 7). -/
opaque freeRdIdx : Nat → Nat

end Sys2Proof.Config
end

