-- ==== Sys2Proof/Machine/State.lean ====
section
/-! DEFINITION. The whole state (spec/10_state.md R19, R20, R21): the environment's two byte spaces, the
core's working state, the host's commands and the responses it has taken. Plain data throughout. -/

namespace Sys2Proof.Machine

/-- A byte space, held as address and byte pairs with addresses strictly rising. An address that is not
listed holds no byte (log 3). -/
abbrev Memory := List Host.Cell

/-- The two decode faults of spec/60_exceptions.md R101, R102. They end an operation with a response (R104)
and never stop the machine. -/
inductive DecodeFault where
  /-- `DecodeTruncated`: the next byte needed is at an index not below LEN (R101). -/
  | truncated
  /-- `DecodeOverlong`: N(W) bytes read, the last with its continuation bit set (R102). -/
  | overlong
  deriving DecidableEq, Repr

/-- The three status values a response can have; code 3 is never produced (R103, U11). -/
inductive Status where
  | ok
  | truncated
  | overlong
  deriving DecidableEq, Repr

/-- A response with exactly the fields spec/10_state.md R14 defines for its operation. -/
inductive Response where
  /-- ZZENC32, ZZDEC32: the 32-bit result. -/
  | zz32 (val : BitVec 32)
  /-- ZZENC64, ZZDEC64: the 64-bit result. -/
  | zz64 (val : BitVec 64)
  /-- VENC32, VENC64: the bytes appended. -/
  | enc (cnt : Nat)
  /-- VDEC32 without fault: value, new offset, bytes consumed. -/
  | dec32 (val : BitVec 32) (off cnt : Nat)
  /-- VDEC64 without fault: value, new offset, bytes consumed. -/
  | dec64 (val : BitVec 64) (off cnt : Nat)
  /-- A decode fault: the offset of the request unchanged, count 0 (R104). -/
  | fault (f : DecodeFault) (off : Nat)
  deriving DecidableEq, Repr

/-- What the core is doing: R19's `busy`, accepted request, `u` or `acc`, `k`, and R20's pending response.
Between operations the core holds nothing (R112), so `idle` carries no value (log 6). -/
inductive Phase where
  /-- No operation in progress, no response pending. -/
  | idle
  /-- VENC32 in progress: the next byte of the remaining magnitude `u` is offered; `k` bytes are appended. -/
  | encode32 (req : Request) (u : BitVec 32) (k : Nat)
  /-- VENC64 in progress. -/
  | encode64 (req : Request) (u : BitVec 64) (k : Nat)
  /-- VDEC32 in progress: the byte at `req.off + k` is asked for; `acc` holds the groups of `k` bytes. -/
  | decode32 (req : Request) (acc : BitVec 32) (k : Nat)
  /-- VDEC64 in progress. -/
  | decode64 (req : Request) (acc : BitVec 64) (k : Nat)
  /-- The operation is performed and its response offered, not yet taken. -/
  | respond (req : Request) (rsp : Response)
  deriving DecidableEq, Repr

/-- The state of the core and its environment. -/
structure State where
  /-- OFFW, the build parameter (R6): any value at least 1; nothing changes it (log 1). -/
  offw      : Nat
  /-- OUTBUF (R30). -/
  outbuf    : Memory
  /-- OUTLEN (R30). -/
  outlen    : Nat
  /-- INSEQ (R31): what the host's storage holds, at and beyond LEN too. -/
  inseq     : Memory
  /-- LEN, the number of available bytes of INSEQ, on `seq_len` (R31). -/
  len       : Nat
  /-- The commands the host has yet to offer, oldest first (log 4). -/
  requests  : List Request
  /-- The core's working state (R19, R20). -/
  phase     : Phase
  /-- The responses the host has taken, oldest first (R132). -/
  responses : List Response
  deriving DecidableEq, Repr

/-- The reasons the model stops with a fault. The spec's own decode faults are not here: they are
responses (R104). -/
inductive Fault where
  /-- Raised by a decode, and by the fair environment's read beat, when INSEQ holds no byte at an index
  below LEN. The spec's INSEQ always has that byte (R31), so no state the spec describes raises it.
  Safe: the model stops where the spec says nothing (log 3). -/
  | inseqByteAbsent (idx : Nat)
  deriving DecidableEq, Repr

/-- The reasons the model gives no meaning to what is asked. All are safe: the model stops. -/
inductive Refusal where
  /-- Raised by an arm of `exec` without a meaning. No arm of this model raises it. Safe. -/
  | notModelled (mnemonic : String)
  /-- Raised by a host event on a handshake the core is not offering: an acceptance while busy or with no
  command to offer, a beat or a response taken with its valid signal at 0 (R12). Safe. -/
  | handshakeNotOffered
  /-- Raised by a host event that changes INSEQ or LEN during a decode, which the host is assumed never to
  do (R124, U12). Safe. -/
  | inputChangedDuringDecode
  /-- Raised by a host event that lets another agent append to OUTBUF during an encode, which the host is
  assumed never to do (R123, U6). Safe. -/
  | foreignAppendDuringEncode
  deriving DecidableEq, Repr

/-- The machine after reset: idle, nothing pending (R21, R120). OFFW stays open (log 1). The environment,
which reset does not touch, starts empty (log 2). -/
def State.reset : State where
  offw      := Config.offw
  outbuf    := []
  outlen    := 0
  inseq     := []
  len       := 0
  requests  := []
  phase     := .idle
  responses := []

end Sys2Proof.Machine
end

