-- ==== Sys2Proof/Machine/Operands.lean ====
section
/-! DEFINITION. The values an operation computes on: the zigzag transform (spec/40_zigzag.md R70, R71), the
byte format (spec/30_encoding.md R53 to R56) and one pass of each codec loop (spec/41_varint32.md R80, R82,
spec/42_varint64.md R90, R92). Every function is computed on exactly the width it is given (R73). -/

namespace Sys2Proof.Machine

/-- `zz_enc_W(n) = shl_W(n, 1) XOR asr_W(n, W-1)` (R70). -/
def zzEnc {w : Nat} (n : BitVec w) : BitVec w :=
  (n <<< 1) ^^^ n.sshiftRight (w - 1)

/-- `zz_dec_W(u) = lsr_W(u, 1) XOR neg_W(u AND 1)` (R71). -/
def zzDec {w : Nat} (u : BitVec w) : BitVec w :=
  (u >>> 1) ^^^ -(u &&& 1#w)

/-- The continuation bit `C` of an encoded byte: bit 7 (R34, R53). -/
def contBit (b : Byte) : Bool :=
  b.getLsbD 7

/-- The group `G` of an encoded byte: bits 6 to 0 (R34, R53). -/
def group (b : Byte) : Group :=
  b.extractLsb' 0 7

/-- The encoded byte `{C, G}` (R53). -/
def encodedByte (more : Bool) (g : Group) : Byte :=
  BitVec.ofBool more ++ g

/-- `u[6:0]`: the group the encoder emits next (R80). -/
def low7 {w : Nat} (u : BitVec w) : Group :=
  u.extractLsb' 0 7

/-- `lsr_W(u, 7)`: the magnitude that remains (R80). -/
def rest {w : Nat} (u : BitVec w) : BitVec w :=
  u >>> 7

/-- Whether the value goes on after the next byte: `rest != 0`, on all remaining bits (R80, R81 c). -/
def more {w : Nat} (u : BitVec w) : Bool :=
  rest u != 0#w

/-- The byte one pass of the encode loop emits (R80, R90). -/
def nextByte {w : Nat} (u : BitVec w) : Byte :=
  encodedByte (more u) (low7 u)

/-- The bytes the encode loop emits from the remaining magnitude `u`, in order, in at most `n` passes
(R80, R90). With `n = N(W)` the loop always ends by its own exit (R81 a, R91 a). -/
def encodeBytes {w : Nat} : (n : Nat) → (u : BitVec w) → List Byte
  | 0, _ => []
  | n + 1, u => if more u then nextByte u :: encodeBytes n (rest u) else [nextByte u]

/-- `trunc_W(zext_2W(g) << (7 * k))`: group `k` at its place in the accumulator, the bits at position `W`
and above dropped (R55, R82). -/
def place (w : Nat) (g : Group) (k : Nat) : BitVec w :=
  ((g.setWidth (2 * w)) <<< (7 * k)).setWidth w

/-- The accumulator after byte `k` is consumed (R82, R92). -/
def accumulate {w : Nat} (acc : BitVec w) (b : Byte) (k : Nat) : BitVec w :=
  acc ||| place w (group b) k

/-- What the byte just read leads to (R82, R92, R105). -/
inductive DecodePass (w : Nat) where
  /-- Continuation bit clear: the value is complete after `k` bytes. -/
  | done (acc : BitVec w) (k : Nat)
  /-- Continuation bit set in the last byte the width allows. -/
  | overlong
  /-- Continuation bit set and another byte allowed. -/
  | more (acc : BitVec w) (k : Nat)
  deriving DecidableEq, Repr

/-- The rest of one decode pass once byte `b` is read, with `k` bytes consumed before it: accumulate,
count, test the continuation bit, then the count (R82, R92, R105). -/
def decodePass {w : Nat} (n : Nat) (acc : BitVec w) (k : Nat) (b : Byte) : DecodePass w :=
  if contBit b = false then .done (accumulate acc b k) (k + 1)
  else if k + 1 = n then .overlong
  else .more (accumulate acc b k) (k + 1)

/-- How a decode ends. -/
inductive DecodeEnd (w : Nat) where
  /-- A byte with continuation bit 0 was found after `k` bytes. -/
  | value (acc : BitVec w) (k : Nat)
  /-- `raise` (R101, R102). -/
  | raised (f : DecodeFault)
  /-- INSEQ holds no byte at this index below LEN (log 3). -/
  | absent (idx : Nat)
  deriving DecidableEq, Repr

/-- A 32-bit result on the 64-bit value bus: zero in the upper half (R15). -/
def bus32 (v : BitVec 32) : BitVec 64 :=
  v.setWidth 64

end Sys2Proof.Machine
end

