-- ==== Sys2Proof/Machine/Flags.lean ====
section
/-! DEFINITION. The only status there is: the fields of a response (spec/10_state.md R14, R16;
spec/60_exceptions.md R103). No flag persists. -/

namespace Sys2Proof.Machine

/-- The code on `rsp_status[1:0]` (R103). -/
def Status.code : Status → BitVec 2
  | .ok => 0#2
  | .truncated => 1#2
  | .overlong => 2#2

/-- The status a fault is reported with (R101, R102). -/
def DecodeFault.status : DecodeFault → Status
  | .truncated => .truncated
  | .overlong => .overlong

/-- `rsp.status` of a response (R14). -/
def Response.status : Response → Status
  | .zz32 _ => .ok
  | .zz64 _ => .ok
  | .enc _ => .ok
  | .dec32 _ _ _ => .ok
  | .dec64 _ _ _ => .ok
  | .fault f _ => f.status

/-- `rsp.val` on the 64-bit bus where the operation defines it (R14, R15). -/
def Response.val : Response → Option (BitVec 64)
  | .zz32 v => some (bus32 v)
  | .zz64 v => some v
  | .enc _ => none
  | .dec32 v _ _ => some (bus32 v)
  | .dec64 v _ _ => some v
  | .fault _ _ => none

/-- `rsp.off` where the operation defines it (R14). -/
def Response.off : Response → Option Nat
  | .zz32 _ => none
  | .zz64 _ => none
  | .enc _ => none
  | .dec32 _ o _ => some o
  | .dec64 _ o _ => some o
  | .fault _ o => some o

/-- `rsp.cnt` where the operation defines it; 0 on a fault (R14, R104). -/
def Response.cnt : Response → Option Nat
  | .zz32 _ => none
  | .zz64 _ => none
  | .enc k => some k
  | .dec32 _ _ k => some k
  | .dec64 _ _ k => some k
  | .fault _ _ => some 0

end Sys2Proof.Machine
end

