-- ==== Sys2Proof/Machine/Ops.lean ====
section
/-! DEFINITION. The named operations: reading and appending bytes (spec/20_memory.md R30, R31), giving a
response, raising a decode fault (spec/60_exceptions.md R104), and the two codec loops run to their end. -/

namespace Sys2Proof.Machine

/-- The canonical form of a byte space: addresses strictly rising. -/
abbrev Memory.wf (m : Memory) : Prop :=
  m.Pairwise (fun a b => a.1 < b.1)

/-- The byte at an address, if the space holds one. -/
def Memory.read : Memory → Nat → Option Byte
  | [], _ => none
  | (a, b) :: m, i => if a = i then some b else Memory.read m i

/-- Store one byte, keeping the canonical form. -/
def Memory.write : Memory → Nat → Byte → Memory
  | [], i, v => [(i, v)]
  | (a, b) :: m, i, v =>
    if i < a then (i, v) :: (a, b) :: m
    else if a = i then (i, v) :: m
    else (a, b) :: Memory.write m i v

/-- The byte space that holds `bs` at consecutive addresses from `i`: how a host lays out a sequence. -/
def Memory.ofBytes (i : Nat) : List Byte → Memory
  | [] => []
  | b :: bs => (i, b) :: Memory.ofBytes (i + 1) bs

/-- `Append(b)`: `OUTBUF[OUTLEN] <- b`, then `OUTLEN <- OUTLEN + 1`. It never fails (R30, log 12). -/
def State.append (s : State) (b : Byte) : State :=
  { s with outbuf := s.outbuf.write s.outlen b, outlen := s.outlen + 1 }

/-- Append each byte in order (R40). -/
def State.appendAll (s : State) : List Byte → State
  | [] => s
  | b :: bs => State.appendAll (s.append b) bs

/-- The operation's response is offered and taken (R22, R132). -/
def State.respond (s : State) (r : Response) : State :=
  { s with responses := s.responses ++ [r] }

/-- `raise <Fault>`: the operation ends at once with the fault response, the offset unchanged, the count
0, and nothing else happens (R104). There is no return operation: the next command is served as after
any other (R106). -/
def State.raise (s : State) (f : DecodeFault) (off : Nat) : State :=
  s.respond (.fault f off)

/-- The core's working state becomes `p`. -/
def State.withPhase (s : State) (p : Phase) : State :=
  { s with phase := p }

/-- The host's commands yet to be offered become `rs`. -/
def State.withRequests (s : State) (rs : List Request) : State :=
  { s with requests := rs }

/-- The input sequence and its bound become what the host drives (R31, R130). -/
def State.withInput (s : State) (m : Memory) (len : Nat) : State :=
  { s with inseq := m, len := len }

/-- The encode loop from the remaining magnitude `u` with `k` bytes already appended, to its response
(R80, R90). -/
def State.encodeFrom {w : Nat} (s : State) (n : Nat) (u : BitVec w) (k : Nat) : State :=
  let bytes := encodeBytes n u
  (s.appendAll bytes).respond (.enc (k + bytes.length))

/-- The decode loop with `k` bytes consumed and at most `todo` more to read. Each pass checks the bound,
reads, accumulates and tests the continuation bit; when the last byte allowed asks for another the value
is overlong, and its successor is not looked at (R82, R92, R102, R105). -/
def decodeLoop {w : Nat} (m : Memory) (len off : Nat) : (todo : Nat) → BitVec w → Nat → DecodeEnd w
  | 0, _, _ => .raised .overlong
  | todo + 1, acc, k =>
    if len ≤ off + k then .raised .truncated
    else match m.read (off + k) with
      | none => .absent (off + k)
      | some b =>
        if contBit b = false then .value (accumulate acc b k) (k + 1)
        else decodeLoop m len off todo (accumulate acc b k) (k + 1)

/-- Give the response of a finished 32-bit decode (R82, R104). -/
def State.endDecode32 (s : State) (off : Nat) : DecodeEnd 32 → Host.Outcome State Fault Refusal
  | .value acc k => .next (s.respond (.dec32 (zzDec acc) (off + k) k))
  | .raised f => .next (s.raise f off)
  | .absent i => .fault (.inseqByteAbsent i)

/-- Give the response of a finished 64-bit decode (R92, R104). -/
def State.endDecode64 (s : State) (off : Nat) : DecodeEnd 64 → Host.Outcome State Fault Refusal
  | .value acc k => .next (s.respond (.dec64 (zzDec acc) (off + k) k))
  | .raised f => .next (s.raise f off)
  | .absent i => .fault (.inseqByteAbsent i)

/-- The 32-bit decode loop from `acc` with `k` bytes consumed, to its response: a 32-bit accumulator and
the bound 5 (R82, R95). -/
def State.decodeFrom32 (s : State) (off : Nat) (acc : BitVec 32) (k : Nat) :
    Host.Outcome State Fault Refusal :=
  s.endDecode32 off (decodeLoop s.inseq s.len off (Config.maxBytes32 - k) acc k)

/-- The 64-bit decode loop from `acc` with `k` bytes consumed, to its response: a 64-bit accumulator and
the bound 10 (R92, R95). -/
def State.decodeFrom64 (s : State) (off : Nat) (acc : BitVec 64) (k : Nat) :
    Host.Outcome State Fault Refusal :=
  s.endDecode64 off (decodeLoop s.inseq s.len off (Config.maxBytes64 - k) acc k)

/-- Carry an operation in progress to its end, with a host that answers every beat (R22, R130, log 5). -/
def State.finish (s : State) : Host.Outcome State Fault Refusal :=
  match s.phase with
  | .idle => .next s
  | .encode32 _ u k => .next ((s.withPhase .idle).encodeFrom Config.maxBytes32 u k)
  | .encode64 _ u k => .next ((s.withPhase .idle).encodeFrom Config.maxBytes64 u k)
  | .decode32 req acc k => (s.withPhase .idle).decodeFrom32 req.off acc k
  | .decode64 req acc k => (s.withPhase .idle).decodeFrom64 req.off acc k
  | .respond _ rsp => .next ((s.withPhase .idle).respond rsp)

end Sys2Proof.Machine
end

