-- ==== Sys2Proof/Machine/Varint.lean ====
section
/-! DEFINITION. The four codec operations (spec/41_varint32.md R80, R82; spec/42_varint64.md R90, R92). -/

namespace Sys2Proof.Machine

/-- VENC32: append the bytes of the 32-bit value `v` to OUTBUF, respond with their count (R80). -/
def execVenc32 (v : BitVec 32) (s : State) : Host.Outcome State Fault Refusal :=
  .next (s.encodeFrom Config.maxBytes32 (zzEnc v) 0)

/-- VENC64: append the bytes of the 64-bit value `v` to OUTBUF, respond with their count (R90). -/
def execVenc64 (v : BitVec 64) (s : State) : Host.Outcome State Fault Refusal :=
  .next (s.encodeFrom Config.maxBytes64 (zzEnc v) 0)

/-- VDEC32: read one value of INSEQ at `off`, respond with it, the advanced offset and the bytes consumed,
or with a fault (R82). -/
def execVdec32 (off : Nat) (s : State) : Host.Outcome State Fault Refusal :=
  s.decodeFrom32 off 0#32 0

/-- VDEC64: read one value of INSEQ at `off`, respond with it, the advanced offset and the bytes consumed,
or with a fault (R92). -/
def execVdec64 (off : Nat) (s : State) : Host.Outcome State Fault Refusal :=
  s.decodeFrom64 off 0#64 0

end Sys2Proof.Machine
end

