-- ==== Sys2Proof/Machine/Zigzag.lean ====
section
/-! DEFINITION. The four operations of the unit `zigzag_transform` (spec/40_zigzag.md R75 to R78). None
touches OUTBUF, INSEQ or a cursor, and none can fail (spec/60_exceptions.md R100). -/

namespace Sys2Proof.Machine

/-- ZZENC32 (R75). -/
def execZzenc32 (n : BitVec 32) (s : State) : Host.Outcome State Fault Refusal :=
  .next (s.respond (.zz32 (zzEnc n)))

/-- ZZENC64 (R76). -/
def execZzenc64 (n : BitVec 64) (s : State) : Host.Outcome State Fault Refusal :=
  .next (s.respond (.zz64 (zzEnc n)))

/-- ZZDEC32 (R77). -/
def execZzdec32 (u : BitVec 32) (s : State) : Host.Outcome State Fault Refusal :=
  .next (s.respond (.zz32 (zzDec u)))

/-- ZZDEC64 (R78). -/
def execZzdec64 (u : BitVec 64) (s : State) : Host.Outcome State Fault Refusal :=
  .next (s.respond (.zz64 (zzDec u)))

end Sys2Proof.Machine
end

