-- ==== Sys2Proof/Machine/Dispatch.lean ====
section
/-! DEFINITION. One arm per command, each one call of its meaning (spec/30_encoding.md R51). -/

namespace Sys2Proof.Machine

/-- The operation a command performs, whole: from its acceptance to its response (spec/10_state.md R22). -/
def exec (i : Instr) (s : State) : Host.Outcome State Fault Refusal :=
  match i with
  | .venc32 v => Sys2Proof.Machine.execVenc32 v s
  | .venc64 v => Sys2Proof.Machine.execVenc64 v s
  | .vdec32 off => Sys2Proof.Machine.execVdec32 off s
  | .vdec64 off => Sys2Proof.Machine.execVdec64 off s
  | .zzenc32 n => Sys2Proof.Machine.execZzenc32 n s
  | .zzenc64 n => Sys2Proof.Machine.execZzenc64 n s
  | .zzdec32 u => Sys2Proof.Machine.execZzdec32 u s
  | .zzdec64 u => Sys2Proof.Machine.execZzdec64 u s

end Sys2Proof.Machine
end

