-- ==== Sys2Proof/Machine/Fetch.lean ====
section
/-! DEFINITION. Which command the core takes next: the core fetches nothing from memory (spec/10_state.md
R11); the host offers its commands one by one and the core accepts when idle (R22). -/

namespace Sys2Proof.Machine

/-- The command the host offers, and the state once it is accepted: the head of `requests`, taken off the
list. `none` while the host offers nothing. -/
def State.accepted (s : State) : Option (Request × State) :=
  match s.requests with
  | [] => none
  | r :: rs => some (r, s.withRequests rs)

/-- The state in which the core is idle and `r` is the next command offered. -/
def State.offering (s : State) (r : Request) : State :=
  (s.withPhase .idle).withRequests (r :: s.requests)

end Sys2Proof.Machine
end

