-- ==== Sys2Proof/Machine/Step.lean ====
section
/-! DEFINITION. One step: one whole operation, atomic to the host (spec/10_state.md R22). -/

namespace Sys2Proof.Machine

/-- An idle core accepts the next command and performs it to its response; with no command offered it
stays as it is. A busy core accepts nothing: it carries its operation to its end first (R22, log 5). -/
def step (s : State) : Host.Outcome State Fault Refusal :=
  match s.phase with
  | .idle =>
    match s.accepted with
    | none => .next s
    | some (r, s') => exec (decode r) s'
  | .encode32 _ _ _ => s.finish
  | .encode64 _ _ _ => s.finish
  | .decode32 _ _ _ => s.finish
  | .decode64 _ _ _ => s.finish
  | .respond _ _ => s.finish

/-- `s` with the command word `w` of `nbits` bits offered next on the request port, and the core idle so
that it is accepted (log 4, log 8). -/
def State.withFetchWord (s : State) (nbits w : Nat) : State :=
  s.offering (requestOfWord (w % 2 ^ nbits))

end Sys2Proof.Machine
end

