-- ==== Sys2Proof/Machine/Beats.lean ====
section
/-! DEFINITION. The core beat by beat, as a host that drives the ports sees it (spec/10_state.md R12, R19;
spec/20_memory.md R36, R40, R41; spec/70_reset_and_hazards.md R120 to R124, R130). One event is one
completed handshake or one move of the host; no clock cycle is counted (log 9, log 18). -/

namespace Sys2Proof.Machine

/-- What the host can do (R130). -/
inductive HostEvent where
  /-- Add a command to the list the host will offer. -/
  | issue (r : Request)
  /-- `req_valid` and `req_ready`: the next command is accepted. -/
  | accept
  /-- `ap_valid` and `ap_ready`: the buffer takes the offered byte. -/
  | appendTaken
  /-- `rd_ack`: the environment answers the byte asked for. -/
  | readAnswer (b : Byte)
  /-- `rsp_valid` and `rsp_ready`: the host takes the response. -/
  | takeResponse
  /-- `rst`. -/
  | reset
  /-- The host connects a byte sequence to the read port and drives `seq_len` (R122 c); when it may is
  `Phase.decoding` (log 21). -/
  | driveInput (m : Memory) (len : Nat)
  /-- The host appends a byte of its own to its buffer; when it may is `Phase.encoding` (log 22). -/
  | foreignAppend (b : Byte)
  deriving DecidableEq, Repr

/-- The 32-bit decoder before its next byte: the bound check of R36, then the byte is asked for. -/
def askByte32 (req : Request) (len : Nat) (acc : BitVec 32) (k : Nat) : Phase :=
  if len ≤ req.off + k then .respond req (.fault .truncated req.off) else .decode32 req acc k

/-- The 64-bit decoder before its next byte. -/
def askByte64 (req : Request) (len : Nat) (acc : BitVec 64) (k : Nat) : Phase :=
  if len ≤ req.off + k then .respond req (.fault .truncated req.off) else .decode64 req acc k

/-- What the core does once it has accepted a request: a ZZ operation has its response at once, an encode
offers its first byte, a decode checks its bound and asks for its first byte. -/
def startPhase (req : Request) (len : Nat) : Instr → Phase
  | .venc32 v => .encode32 req (zzEnc v) 0
  | .venc64 v => .encode64 req (zzEnc v) 0
  | .vdec32 _ => askByte32 req len 0#32 0
  | .vdec64 _ => askByte64 req len 0#64 0
  | .zzenc32 n => .respond req (.zz32 (zzEnc n))
  | .zzenc64 n => .respond req (.zz64 (zzEnc n))
  | .zzdec32 u => .respond req (.zz32 (zzDec u))
  | .zzdec64 u => .respond req (.zz64 (zzDec u))

/-- Acceptance of the next command (R22): only when idle, only if the host offers one. -/
def State.acceptBeat (s : State) : Host.Outcome State Fault Refusal :=
  match s.phase with
  | .idle =>
    match s.accepted with
    | some (r, s') => .next (s'.withPhase (startPhase r s'.len (decode r)))
    | none => .refused .handshakeNotOffered
  | .encode32 _ _ _ => .refused .handshakeNotOffered
  | .encode64 _ _ _ => .refused .handshakeNotOffered
  | .decode32 _ _ _ => .refused .handshakeNotOffered
  | .decode64 _ _ _ => .refused .handshakeNotOffered
  | .respond _ _ => .refused .handshakeNotOffered

/-- One append beat (R40): the offered byte enters OUTBUF, and the encoder goes on or is done. -/
def State.appendBeat (s : State) : Host.Outcome State Fault Refusal :=
  match s.phase with
  | .encode32 req u k => .next ((s.append (nextByte u)).withPhase
      (if more u then .encode32 req (rest u) (k + 1) else .respond req (.enc (k + 1))))
  | .encode64 req u k => .next ((s.append (nextByte u)).withPhase
      (if more u then .encode64 req (rest u) (k + 1) else .respond req (.enc (k + 1))))
  | .idle => .refused .handshakeNotOffered
  | .decode32 _ _ _ => .refused .handshakeNotOffered
  | .decode64 _ _ _ => .refused .handshakeNotOffered
  | .respond _ _ => .refused .handshakeNotOffered

/-- What a 32-bit decode does with the byte it is answered (R82, R105). -/
def afterByte32 (req : Request) (len : Nat) (acc : BitVec 32) (k : Nat) (b : Byte) : Phase :=
  match decodePass Config.maxBytes32 acc k b with
  | .done a j => .respond req (.dec32 (zzDec a) (req.off + j) j)
  | .overlong => .respond req (.fault .overlong req.off)
  | .more a j => askByte32 req len a j

/-- What a 64-bit decode does with the byte it is answered (R92, R105). -/
def afterByte64 (req : Request) (len : Nat) (acc : BitVec 64) (k : Nat) (b : Byte) : Phase :=
  match decodePass Config.maxBytes64 acc k b with
  | .done a j => .respond req (.dec64 (zzDec a) (req.off + j) j)
  | .overlong => .respond req (.fault .overlong req.off)
  | .more a j => askByte64 req len a j

/-- One read beat (R41). The byte is whatever the read port returns: when it is not INSEQ's byte the
decode is the function of R82 or R92 applied to the bytes returned (R124, log 11). -/
def State.readBeat (s : State) (b : Byte) : Host.Outcome State Fault Refusal :=
  match s.phase with
  | .decode32 req acc k => .next (s.withPhase (afterByte32 req s.len acc k b))
  | .decode64 req acc k => .next (s.withPhase (afterByte64 req s.len acc k b))
  | .idle => .refused .handshakeNotOffered
  | .encode32 _ _ _ => .refused .handshakeNotOffered
  | .encode64 _ _ _ => .refused .handshakeNotOffered
  | .respond _ _ => .refused .handshakeNotOffered

/-- The host takes the response; the operation is over (R132). -/
def State.takeBeat (s : State) : Host.Outcome State Fault Refusal :=
  match s.phase with
  | .respond _ rsp => .next ((s.withPhase .idle).respond rsp)
  | .idle => .refused .handshakeNotOffered
  | .encode32 _ _ _ => .refused .handshakeNotOffered
  | .encode64 _ _ _ => .refused .handshakeNotOffered
  | .decode32 _ _ _ => .refused .handshakeNotOffered
  | .decode64 _ _ _ => .refused .handshakeNotOffered

/-- `rst` (R120, R121): the core is idle with nothing pending, an operation in progress is abandoned without
a response, bytes already appended stay, and the environment is not touched. -/
def State.resetCore (s : State) : State :=
  s.withPhase .idle

/-- Whether a decode has been accepted and still reads: the time in which INSEQ and LEN must hold still
(R124 "to its response"). DESIGN CHOICE: the time ends when the response is offered, not when it is taken,
though R132 ends the operation only then; all its reads are done (R42, log 21). -/
def Phase.decoding : Phase → Bool
  | .idle => false
  | .encode32 _ _ _ => false
  | .encode64 _ _ _ => false
  | .decode32 _ _ _ => true
  | .decode64 _ _ _ => true
  | .respond _ _ => false

/-- Whether an encode still appends: the time in which nothing else may append (R123). DESIGN CHOICE: the time
ends when the response is offered, not when it is taken, though R132 ends the operation only then; all its
bytes are in OUTBUF (R42, log 22). -/
def Phase.encoding : Phase → Bool
  | .idle => false
  | .encode32 _ _ _ => true
  | .encode64 _ _ _ => true
  | .decode32 _ _ _ => false
  | .decode64 _ _ _ => false
  | .respond _ _ => false

/-- One event of the host. -/
def beat (e : HostEvent) (s : State) : Host.Outcome State Fault Refusal :=
  match e with
  | .issue r => .next (s.withRequests (s.requests ++ [r]))
  | .accept => s.acceptBeat
  | .appendTaken => s.appendBeat
  | .readAnswer b => s.readBeat b
  | .takeResponse => s.takeBeat
  | .reset => .next s.resetCore
  | .driveInput m len =>
    if s.phase.decoding then .refused .inputChangedDuringDecode else .next (s.withInput m len)
  | .foreignAppend b =>
    if s.phase.encoding then .refused .foreignAppendDuringEncode else .next (s.append b)

/-- The read beat of a host that keeps to R130: the answer is INSEQ's byte at the index asked for. -/
def State.answerRead (s : State) (i : Nat) : Host.Outcome State Fault Refusal :=
  match s.inseq.read i with
  | some b => beat (.readAnswer b) s
  | none => .fault (.inseqByteAbsent i)

/-- The next beat with a host that offers its commands and answers every beat as R130 says; with nothing
to do the machine stays as it is. -/
def fairBeat (s : State) : Host.Outcome State Fault Refusal :=
  match s.phase with
  | .idle =>
    match s.requests with
    | [] => .next s
    | _ :: _ => beat .accept s
  | .encode32 _ _ _ => beat .appendTaken s
  | .encode64 _ _ _ => beat .appendTaken s
  | .decode32 req _ k => s.answerRead (req.off + k)
  | .decode64 req _ k => s.answerRead (req.off + k)
  | .respond _ _ => beat .takeResponse s

/-- `n` beats with such a host, stopping at the first fault or refusal. -/
def fairBeats : Nat → State → Host.Outcome State Fault Refusal
  | 0, s => .next s
  | n + 1, s =>
    match fairBeat s with
    | .next s' => fairBeats n s'
    | .fault f => .fault f
    | .refused r => .refused r

/-- A list of events in order, stopping at the first fault or refusal. -/
def beats : List HostEvent → State → Host.Outcome State Fault Refusal
  | [], s => .next s
  | e :: es, s =>
    match beat e s with
    | .next s' => beats es s'
    | .fault f => .fault f
    | .refused r => .refused r

end Sys2Proof.Machine
end

