-- ==== Sys2Proof/Machine/Ports.lean ====
section
/-! DEFINITION. The output signals of the five ports (spec/10_state.md R12), read off the state. Where no rule
defines a signal its level is a free value of Config at the instant `t` looked at, a different one at every
instant if need be (R14, R21; spec/93_implementation_defined.md U8, U9; log 7). -/

namespace Sys2Proof.Machine

/-- The core's output signals (R12). -/
structure Wires where
  reqReady  : Bool
  rspValid  : Bool
  rspStatus : BitVec 2
  rspVal    : BitVec 64
  rspOff    : Nat
  rspCnt    : BitVec 4
  apValid   : Bool
  apByte    : Byte
  rdValid   : Bool
  rdIdx     : Nat
  deriving DecidableEq, Repr

/-- All signals with nothing offered: every valid 0, every datum free. -/
def quietWires (t offw : Nat) : Wires where
  reqReady  := false
  rspValid  := false
  rspStatus := Config.freeRspStatus t
  rspVal    := Config.freeRspVal t
  rspOff    := Config.freeRspOff t % 2 ^ offw
  rspCnt    := Config.freeRspCnt t
  apValid   := false
  apByte    := Config.freeApByte t
  rdValid   := false
  rdIdx     := Config.freeRdIdx t % 2 ^ offw

/-- A value on the response bus of an operation with op code `op`: at width 32 (`w64 = 0`, R50) the upper half
is zero, whatever the lower half holds (R15, U8). -/
def onBus (op : BitVec 3) (v : BitVec 64) : BitVec 64 :=
  if op.getLsbD 0 then v else bus32 (v.setWidth 32)

/-- The output signals at instant `t` in state `s`. A response without a value (R14) leaves `rsp_val` free, but
for the upper half at width 32, which U8 defines as zero. -/
def State.wires (t : Nat) (s : State) : Wires :=
  let quiet := quietWires t s.offw
  match s.phase with
  | .idle => { quiet with reqReady := true }
  | .encode32 _ u _ => { quiet with apValid := true, apByte := nextByte u }
  | .encode64 _ u _ => { quiet with apValid := true, apByte := nextByte u }
  | .decode32 req _ k => { quiet with rdValid := true, rdIdx := req.off + k }
  | .decode64 req _ k => { quiet with rdValid := true, rdIdx := req.off + k }
  | .respond req rsp =>
    { quiet with
      rspValid  := true
      rspStatus := rsp.status.code
      rspVal    := rsp.val.getD (onBus req.op quiet.rspVal)
      rspOff    := rsp.off.getD quiet.rspOff
      rspCnt    := (rsp.cnt.map (BitVec.ofNat 4)).getD quiet.rspCnt }

end Sys2Proof.Machine
end

