-- ==== Sys2Proof/Safety.lean ====
section
/-! DEFINITION. What a state the hardware can be in looks like, and the host's cursor discipline
(spec/10_state.md R18 to R22, spec/20_memory.md R30, R31, spec/00_scope.md R6). Claims take these as premises
and prove that steps and beats keep them. -/

namespace Sys2Proof.Machine

/-- `rsp` is one of the responses R14 gives command `i`, with the count its rule allows, the offset that
goes with it, and for a ZZ operation its value. -/
def Response.answers : Instr → Response → Prop
  | .venc32 _, .enc k => 1 ≤ k ∧ k ≤ 5
  | .venc64 _, .enc k => 1 ≤ k ∧ k ≤ 10
  | .vdec32 off, .dec32 _ o k => 1 ≤ k ∧ k ≤ 5 ∧ o = off + k
  | .vdec32 off, .fault _ o => o = off
  | .vdec64 off, .dec64 _ o k => 1 ≤ k ∧ k ≤ 10 ∧ o = off + k
  | .vdec64 off, .fault _ o => o = off
  | .zzenc32 n, .zz32 v => v = zzEnc n
  | .zzenc64 n, .zz64 v => v = zzEnc n
  | .zzdec32 u, .zz32 v => v = zzDec u
  | .zzdec64 u, .zz64 v => v = zzDec u
  | _, _ => False

/-- The response's fields fit their signals: a count of 1 to 10 where it is not 0, an offset below 2^OFFW
(R12, R14). -/
def Response.wf (offw : Nat) : Response → Prop
  | .zz32 _ => True
  | .zz64 _ => True
  | .enc k => 1 ≤ k ∧ k ≤ 10
  | .dec32 _ o k => 1 ≤ k ∧ k ≤ 5 ∧ o < 2 ^ offw
  | .dec64 _ o k => 1 ≤ k ∧ k ≤ 10 ∧ o < 2 ^ offw
  | .fault _ o => o < 2 ^ offw

/-- The working state is one its operation can be in (R19): the magnitude left is the operand's shifted by
what is appended, the byte asked for is below LEN (R36, R41), the count is below N(W). -/
def Phase.wf (offw len : Nat) : Phase → Prop
  | .idle => True
  | .encode32 req u k =>
    req.wf offw = true ∧ req.op = 0b000#3 ∧ k < 5 ∧
      u = zzEnc (operand32 req.val) >>> (7 * k) ∧ (k = 0 ∨ u ≠ 0#32)
  | .encode64 req u k =>
    req.wf offw = true ∧ req.op = 0b001#3 ∧ k < 10 ∧
      u = zzEnc req.val >>> (7 * k) ∧ (k = 0 ∨ u ≠ 0#64)
  | .decode32 req acc k =>
    req.wf offw = true ∧ req.op = 0b010#3 ∧ k < 5 ∧ req.off + k < len ∧ acc.toNat < 2 ^ (7 * k)
  | .decode64 req acc k =>
    req.wf offw = true ∧ req.op = 0b011#3 ∧ k < 10 ∧ req.off + k < len ∧ acc.toNat < 2 ^ (7 * k)
  | .respond req rsp =>
    req.wf offw = true ∧ rsp.answers (decode req) ∧ rsp.wf offw

/-- A state the hardware and a host that keeps to R122 and R130 can be in. -/
structure State.Inv (s : State) : Prop where
  /-- OFFW is at least 1 (R6). -/
  offw_pos : 1 ≤ s.offw
  /-- OUTBUF holds a byte at exactly the indices below OUTLEN, in canonical form (R30). -/
  outbuf_full : s.outbuf.map Prod.fst = List.range s.outlen
  /-- INSEQ is in canonical form. -/
  inseq_wf : s.inseq.wf
  /-- INSEQ holds a byte at every index below LEN (R31). -/
  inseq_full : ∀ a < s.len, (s.inseq.read a).isSome = true
  /-- LEN is at most 2^OFFW - 1 (R6, R31). -/
  len_fits : s.len ≤ 2 ^ s.offw - 1
  /-- Every command the host will offer fits the request port (R13). -/
  requests_wf : ∀ r ∈ s.requests, r.wf s.offw = true
  /-- The working state is legal (R19). -/
  phase_wf : s.phase.wf s.offw s.len
  /-- Every response taken fits the response port (R12, R14). -/
  responses_wf : ∀ r ∈ s.responses, r.wf s.offw

/-- The host's move fits the ports (R13, R31, R122 c). -/
def HostEvent.wf (offw : Nat) : HostEvent → Prop
  | .issue r => r.wf offw = true
  | .accept => True
  | .appendTaken => True
  | .readAnswer _ => True
  | .takeResponse => True
  | .reset => True
  | .driveInput m len =>
    m.wf ∧ (∀ a < len, (m.read a).isSome = true) ∧ len ≤ 2 ^ offw - 1
  | .foreignAppend _ => True

/-- The bytes a command appends to OUTBUF (spec/30_encoding.md R51: only the encodes write it). -/
def storedBytes : Instr → List Byte
  | .venc32 v => encodeBytes Config.maxBytes32 (zzEnc v)
  | .venc64 v => encodeBytes Config.maxBytes64 (zzEnc v)
  | .vdec32 _ => []
  | .vdec64 _ => []
  | .zzenc32 _ => []
  | .zzenc64 _ => []
  | .zzdec32 _ => []
  | .zzdec64 _ => []

/-- `t` is `s` with its operation over: the core idle, `bytes` appended at OUTLEN, the one response `rsp` taken,
everything else as in `s` (R22, R132). -/
def State.FinishedAs (s : State) (bytes : List Byte) (rsp : Response) (t : State) : Prop :=
  t.phase = .idle ∧ t.responses = s.responses ++ [rsp] ∧
  t.outlen = s.outlen + bytes.length ∧
  (∀ j < bytes.length, t.outbuf.read (s.outlen + j) = bytes[j]?) ∧
  (∀ a, (a < s.outlen ∨ s.outlen + bytes.length ≤ a) → t.outbuf.read a = s.outbuf.read a) ∧
  t.offw = s.offw ∧ t.inseq = s.inseq ∧ t.len = s.len ∧ t.requests = s.requests

/-- The commands performed one after another in one state, by a host that takes every response (R22,
R132). -/
def execAll : List Instr → State → Host.Outcome State Fault Refusal
  | [], s => .next s
  | i :: is, s =>
    match exec i s with
    | .next s' => execAll is s'
    | .fault f => .fault f
    | .refused r => .refused r

/-- `n` values decoded one after another at width 32, each VDEC32 starting at the `rsp.off` of the one
before it (R18): the values and the last offset, or nothing if one of them has no value. -/
def decodeChain32 : (n off : Nat) → State → Option (List (BitVec 32) × Nat)
  | 0, off, _ => some ([], off)
  | n + 1, off, s =>
    match exec (.vdec32 off) s with
    | .next s' =>
      match s'.responses.getLast? with
      | some (.dec32 v off' _) => (decodeChain32 n off' s').map (fun p => (v :: p.1, p.2))
      | some (.zz32 _) => none
      | some (.zz64 _) => none
      | some (.enc _) => none
      | some (.dec64 _ _ _) => none
      | some (.fault _ _) => none
      | none => none
    | .fault _ => none
    | .refused _ => none

/-- The same at width 64, with VDEC64. -/
def decodeChain64 : (n off : Nat) → State → Option (List (BitVec 64) × Nat)
  | 0, off, _ => some ([], off)
  | n + 1, off, s =>
    match exec (.vdec64 off) s with
    | .next s' =>
      match s'.responses.getLast? with
      | some (.dec64 v off' _) => (decodeChain64 n off' s').map (fun p => (v :: p.1, p.2))
      | some (.zz32 _) => none
      | some (.zz64 _) => none
      | some (.enc _) => none
      | some (.dec32 _ _ _) => none
      | some (.fault _ _) => none
      | none => none
    | .fault _ => none
    | .refused _ => none

end Sys2Proof.Machine
end

