-- ==== Sys2Proof/Certificates/Slice0/Obligations.lean ====
section
/-! DEFINITION. The statements for the provers. Each is about every state unless a premise says otherwise;
`State.Inv` (Safety.lean) is the premise that rules out states no hardware is in, and is itself kept by every
step and beat (`StepKeepsTheInvariant`, `BeatKeepsTheInvariant`). -/

open Sys2Proof Sys2Proof.Machine

section Encoding

/-- DECODE AND ENCODE AGREE, for every command with every operand: the request the host issues decodes to
the command, is recovered from its command word, and fits the port exactly when the command does
(spec/30_encoding.md R50 to R52; the word's layout is log 8's). -/
def Obligations.DecodeOfEncodeIsTheCommand : Prop :=
  ∀ i : Instr,
    decode (encode i) = i ∧
    requestOfWord (wordOfRequest (encode i)) = encode i ∧
    ∀ offw : Nat, (encode i).wf offw = i.wf offw

/-- The op code table (spec/30_encoding.md R51): each of the eight values of `req_op` selects its operation,
whatever stands in the operand fields, with the operand fields R51 says it reads. -/
def Obligations.EachOpCodeSelectsItsOperation : Prop :=
  ∀ (val : BitVec 64) (off : Nat),
    decode ⟨0b000#3, val, off⟩ = .venc32 (val.extractLsb' 0 32) ∧
    decode ⟨0b001#3, val, off⟩ = .venc64 val ∧
    decode ⟨0b010#3, val, off⟩ = .vdec32 off ∧
    decode ⟨0b011#3, val, off⟩ = .vdec64 off ∧
    decode ⟨0b100#3, val, off⟩ = .zzenc32 (val.extractLsb' 0 32) ∧
    decode ⟨0b101#3, val, off⟩ = .zzenc64 val ∧
    decode ⟨0b110#3, val, off⟩ = .zzdec32 (val.extractLsb' 0 32) ∧
    decode ⟨0b111#3, val, off⟩ = .zzdec64 val

/-- A field an operation does not read is ignored (spec/10_state.md R13): two idle cores that are offered
requests with the same op code, agreeing on the field (for width 32 the half) the operation reads, take
the same step. -/
def Obligations.UnreadRequestFieldsChangeNothing : Prop :=
  ∀ (s : State) (r r' : Request), r.op = r'.op →
    ((r.op = 0b000#3 ∨ r.op = 0b100#3 ∨ r.op = 0b110#3) →
      (∀ j < 32, r.val.getLsbD j = r'.val.getLsbD j) →
      step (s.offering r) = step (s.offering r')) ∧
    ((r.op = 0b001#3 ∨ r.op = 0b101#3 ∨ r.op = 0b111#3) → r.val = r'.val →
      step (s.offering r) = step (s.offering r')) ∧
    ((r.op = 0b010#3 ∨ r.op = 0b011#3) → r.off = r'.off →
      step (s.offering r) = step (s.offering r'))

end Encoding

section Stepping

/-- A STEP RUNS THE DECODED COMMAND. With the core idle, a step performs the first command offered, taken off
the host's list; for a command `i` the host encodes, that is `exec i`. With none offered the core stays
as it is (the model's choice, log 4). -/
def Obligations.StepRunsTheCommandOffered : Prop :=
  (∀ (s : State) (r : Request) (rs : List Request), s.phase = .idle → s.requests = r :: rs →
    step s = exec (decode r) { s with requests := rs }) ∧
  (∀ (s : State) (i : Instr), step (s.offering (encode i)) = exec i { s with phase := .idle }) ∧
  (∀ s : State, s.phase = .idle → s.requests = [] → step s = .next s)

/-- A busy core takes no command (spec/10_state.md R22): its step carries the operation in progress to its
end, the host's list of commands, INSEQ and LEN untouched (that the rest of the operation is one step is the
model's choice, log 5). A response offered is the response taken. An encode appends the bytes its value has
left after the `k` appended, and answers the count of all of them. A decode answers what the whole command
answers on an input that holds, before the byte asked for, any bytes that leave this accumulator, and from
that byte on what INSEQ holds. -/
def Obligations.BusyStepEndsItsOperationFirst : Prop :=
  ∀ s : State, s.Inv →
    (∀ (req : Request) (rsp : Response), s.phase = .respond req rsp →
      ∃ t : State, step s = .next t ∧ s.FinishedAs [] rsp t ∧ rsp.answers (decode req)) ∧
    (∀ (req : Request) (u : BitVec 32) (k : Nat), s.phase = .encode32 req u k →
      ∃ t : State, step s = .next t ∧
        encodeBytes Config.maxBytes32 u = (storedBytes (decode req)).drop k ∧
        s.FinishedAs (encodeBytes Config.maxBytes32 u) (.enc (storedBytes (decode req)).length) t) ∧
    (∀ (req : Request) (u : BitVec 64) (k : Nat), s.phase = .encode64 req u k →
      ∃ t : State, step s = .next t ∧
        encodeBytes Config.maxBytes64 u = (storedBytes (decode req)).drop k ∧
        s.FinishedAs (encodeBytes Config.maxBytes64 u) (.enc (storedBytes (decode req)).length) t) ∧
    (∀ (req : Request) (acc : BitVec 32) (k : Nat), s.phase = .decode32 req acc k →
      ∃ (t : State) (rsp : Response), step s = .next t ∧ s.FinishedAs [] rsp t ∧
        rsp.answers (decode req) ∧
        ∀ (m : Memory) (b : Nat → Byte),
          (∀ i < k, m.read (req.off + i) = some (b i) ∧ (b i).getLsbD 7 = true) →
          (∀ a, req.off + k ≤ a → m.read a = s.inseq.read a) →
          acc = BitVec.ofNat 32 (∑ i ∈ Finset.range k, (b i).toNat % 128 * 2 ^ (7 * i)) →
          exec (decode req) { s with inseq := m, phase := .idle } = .next { t with inseq := m }) ∧
    (∀ (req : Request) (acc : BitVec 64) (k : Nat), s.phase = .decode64 req acc k →
      ∃ (t : State) (rsp : Response), step s = .next t ∧ s.FinishedAs [] rsp t ∧
        rsp.answers (decode req) ∧
        ∀ (m : Memory) (b : Nat → Byte),
          (∀ i < k, m.read (req.off + i) = some (b i) ∧ (b i).getLsbD 7 = true) →
          (∀ a, req.off + k ≤ a → m.read a = s.inseq.read a) →
          acc = BitVec.ofNat 64 (∑ i ∈ Finset.range k, (b i).toNat % 128 * 2 ^ (7 * i)) →
          exec (decode req) { s with inseq := m, phase := .idle } = .next { t with inseq := m })

/-- AN INVARIANT EVERY STEP KEEPS: canonical byte spaces, OUTBUF full to OUTLEN, LEN within OFFW, a legal
working state, responses that fit their port. -/
def Obligations.StepKeepsTheInvariant : Prop :=
  ∀ s t : State, s.Inv → step s = .next t → t.Inv

/-- The state after reset meets the invariant, whatever OFFW is. -/
def Obligations.ResetStateMeetsTheInvariant : Prop :=
  State.reset.Inv

/-- Every move of the host that fits the ports, and every beat, keeps the invariant: reset in the middle of
an operation, read answers of any value and foreign appends among them. -/
def Obligations.BeatKeepsTheInvariant : Prop :=
  ∀ (e : HostEvent) (s t : State), s.Inv → e.wf s.offw → beat e s = .next t → t.Inv

/-- THE ATOMIC STEP IS WHAT THE BEATS DO (spec/10_state.md R22 against R12, R19, R40, R41): with a host that
answers every beat, at most 12 beats bring about exactly the state one step answers. -/
def Obligations.AtomicStepIsReachedByFairBeats : Prop :=
  ∀ s : State, s.Inv → (s.phase ≠ .idle ∨ s.requests ≠ []) →
    ∃ (n : Nat) (t : State), 1 ≤ n ∧ n ≤ 12 ∧ step s = .next t ∧ fairBeats n s = .next t

/-- A run ends (spec/70_reset_and_hazards.md R132): from an idle core, as many steps as there are commands
perform them all, in order, with one response of the right kind for each, the bytes of the encodes one
after another at the end of OUTBUF, and everything else as it was. -/
def Obligations.RunPerformsEveryCommandInOrder : Prop :=
  ∀ s : State, s.Inv → s.phase = .idle →
    ∃ (t : State) (rsps : List Response),
      Host.Core.run Sys2Proof.core s.requests.length s = .next t ∧
      t.phase = .idle ∧ t.requests = [] ∧ t.responses = s.responses ++ rsps ∧
      List.Forall₂ (fun r rsp => Response.answers (decode r) rsp) s.requests rsps ∧
      t.outlen = s.outlen + (s.requests.flatMap (fun r => storedBytes (decode r))).length ∧
      (∀ j < (s.requests.flatMap (fun r => storedBytes (decode r))).length,
        t.outbuf.read (s.outlen + j) = (s.requests.flatMap (fun r => storedBytes (decode r)))[j]?) ∧
      (∀ a < s.outlen, t.outbuf.read a = s.outbuf.read a) ∧
      t.inseq = s.inseq ∧ t.len = s.len ∧ t.offw = s.offw

end Stepping

section Zigzag

/-- ZZENC32 (spec/40_zigzag.md R75), for every request that carries it: the response is OK with
`shl(n,1) XOR asr(n,31)` of the low operand half, zero in the upper half of the bus; nothing else changes.
The rule's corner cases are stated beside it. -/
def Obligations.Zzenc32Responds : Prop :=
  (∀ (s : State) (val : BitVec 64) (off : Nat), ∃ n v : BitVec 32,
    n = val.extractLsb' 0 32 ∧ decode ⟨0b100#3, val, off⟩ = .zzenc32 n ∧
    v = (n <<< 1) ^^^ n.sshiftRight 31 ∧
    exec (.zzenc32 n) s = .next { s with responses := s.responses ++ [.zz32 v] } ∧
    (Response.zz32 v).status.code = 0#2 ∧ (Response.zz32 v).val = some (0#32 ++ v)) ∧
  (∀ s : State,
    exec (.zzenc32 0#32) s = .next { s with responses := s.responses ++ [.zz32 0#32] } ∧
    exec (.zzenc32 0xFFFFFFFF#32) s = .next { s with responses := s.responses ++ [.zz32 1#32] } ∧
    exec (.zzenc32 0x7FFFFFFF#32) s =
      .next { s with responses := s.responses ++ [.zz32 0xFFFFFFFE#32] } ∧
    exec (.zzenc32 0x80000000#32) s =
      .next { s with responses := s.responses ++ [.zz32 0xFFFFFFFF#32] })

/-- ZZENC64 (spec/40_zigzag.md R76), with its corner cases. -/
def Obligations.Zzenc64Responds : Prop :=
  (∀ (s : State) (n : BitVec 64) (off : Nat), ∃ v : BitVec 64,
    decode ⟨0b101#3, n, off⟩ = .zzenc64 n ∧
    v = (n <<< 1) ^^^ n.sshiftRight 63 ∧
    exec (.zzenc64 n) s = .next { s with responses := s.responses ++ [.zz64 v] } ∧
    (Response.zz64 v).status.code = 0#2 ∧ (Response.zz64 v).val = some v) ∧
  (∀ s : State,
    exec (.zzenc64 0#64) s = .next { s with responses := s.responses ++ [.zz64 0#64] } ∧
    exec (.zzenc64 0xFFFFFFFFFFFFFFFF#64) s =
      .next { s with responses := s.responses ++ [.zz64 1#64] } ∧
    exec (.zzenc64 0x7FFFFFFFFFFFFFFF#64) s =
      .next { s with responses := s.responses ++ [.zz64 0xFFFFFFFFFFFFFFFE#64] } ∧
    exec (.zzenc64 0x8000000000000000#64) s =
      .next { s with responses := s.responses ++ [.zz64 0xFFFFFFFFFFFFFFFF#64] } ∧
    exec (.zzenc64 0x0000000080000000#64) s =
      .next { s with responses := s.responses ++ [.zz64 0x0000000100000000#64] })

/-- ZZDEC32 (spec/40_zigzag.md R77), with its corner cases: the upper half of the result bus is zero, not a
sign extension. -/
def Obligations.Zzdec32Responds : Prop :=
  (∀ (s : State) (val : BitVec 64) (off : Nat), ∃ u v : BitVec 32,
    u = val.extractLsb' 0 32 ∧ decode ⟨0b110#3, val, off⟩ = .zzdec32 u ∧
    v = (u >>> 1) ^^^ -(u &&& 1#32) ∧
    exec (.zzdec32 u) s = .next { s with responses := s.responses ++ [.zz32 v] } ∧
    (Response.zz32 v).status.code = 0#2 ∧ (Response.zz32 v).val = some (0#32 ++ v)) ∧
  (∀ s : State,
    exec (.zzdec32 0#32) s = .next { s with responses := s.responses ++ [.zz32 0#32] } ∧
    exec (.zzdec32 1#32) s = .next { s with responses := s.responses ++ [.zz32 0xFFFFFFFF#32] } ∧
    exec (.zzdec32 0xFFFFFFFE#32) s =
      .next { s with responses := s.responses ++ [.zz32 0x7FFFFFFF#32] } ∧
    exec (.zzdec32 0xFFFFFFFF#32) s =
      .next { s with responses := s.responses ++ [.zz32 0x80000000#32] })

/-- ZZDEC64 (spec/40_zigzag.md R78), with its corner cases. -/
def Obligations.Zzdec64Responds : Prop :=
  (∀ (s : State) (u : BitVec 64) (off : Nat), ∃ v : BitVec 64,
    decode ⟨0b111#3, u, off⟩ = .zzdec64 u ∧
    v = (u >>> 1) ^^^ -(u &&& 1#64) ∧
    exec (.zzdec64 u) s = .next { s with responses := s.responses ++ [.zz64 v] } ∧
    (Response.zz64 v).status.code = 0#2 ∧ (Response.zz64 v).val = some v) ∧
  (∀ s : State,
    exec (.zzdec64 0#64) s = .next { s with responses := s.responses ++ [.zz64 0#64] } ∧
    exec (.zzdec64 1#64) s =
      .next { s with responses := s.responses ++ [.zz64 0xFFFFFFFFFFFFFFFF#64] } ∧
    exec (.zzdec64 0xFFFFFFFFFFFFFFFE#64) s =
      .next { s with responses := s.responses ++ [.zz64 0x7FFFFFFFFFFFFFFF#64] } ∧
    exec (.zzdec64 0xFFFFFFFFFFFFFFFF#64) s =
      .next { s with responses := s.responses ++ [.zz64 0x8000000000000000#64] } ∧
    exec (.zzdec64 0x00000000FFFFFFFF#64) s =
      .next { s with responses := s.responses ++ [.zz64 0xFFFFFFFF80000000#64] })

/-- What ZZENC and ZZDEC compute as integers, at both widths (spec/40_zigzag.md section 1). -/
def Obligations.ZigzagReadsAsIntegers : Prop :=
  (∀ n : BitVec 32,
    (0 ≤ n.toInt → ((zzEnc n).toNat : Int) = 2 * n.toInt) ∧
    (n.toInt < 0 → ((zzEnc n).toNat : Int) = -2 * n.toInt - 1)) ∧
  (∀ n : BitVec 64,
    (0 ≤ n.toInt → ((zzEnc n).toNat : Int) = 2 * n.toInt) ∧
    (n.toInt < 0 → ((zzEnc n).toNat : Int) = -2 * n.toInt - 1)) ∧
  (∀ u : BitVec 32,
    (u.toNat % 2 = 0 → 2 * (zzDec u).toInt = (u.toNat : Int)) ∧
    (u.toNat % 2 = 1 → 2 * (zzDec u).toInt = -((u.toNat : Int) + 1))) ∧
  (∀ u : BitVec 64,
    (u.toNat % 2 = 0 → 2 * (zzDec u).toInt = (u.toNat : Int)) ∧
    (u.toNat % 2 = 1 → 2 * (zzDec u).toInt = -((u.toNat : Int) + 1)))

/-- The transform is a bijection at each width (spec/40_zigzag.md section 1): a ZZDEC of the value a ZZENC
responded with responds with the operand, and the other way round. -/
def Obligations.ZigzagOperationsUndoEachOther : Prop :=
  (∀ (s : State) (n : BitVec 32), ∃ v : BitVec 32,
    exec (.zzenc32 n) s = .next { s with responses := s.responses ++ [.zz32 v] } ∧
    exec (.zzdec32 v) s = .next { s with responses := s.responses ++ [.zz32 n] }) ∧
  (∀ (s : State) (u : BitVec 32), ∃ v : BitVec 32,
    exec (.zzdec32 u) s = .next { s with responses := s.responses ++ [.zz32 v] } ∧
    exec (.zzenc32 v) s = .next { s with responses := s.responses ++ [.zz32 u] }) ∧
  (∀ (s : State) (n : BitVec 64), ∃ v : BitVec 64,
    exec (.zzenc64 n) s = .next { s with responses := s.responses ++ [.zz64 v] } ∧
    exec (.zzdec64 v) s = .next { s with responses := s.responses ++ [.zz64 n] }) ∧
  (∀ (s : State) (u : BitVec 64), ∃ v : BitVec 64,
    exec (.zzdec64 u) s = .next { s with responses := s.responses ++ [.zz64 v] } ∧
    exec (.zzenc64 v) s = .next { s with responses := s.responses ++ [.zz64 u] })

end Zigzag

section Encoders

/-- VENC32 (spec/41_varint32.md R80): with `u` the zigzag of the operand, the least number `L` of 7-bit groups
that hold `u` (at least one) is appended at OUTLEN, byte `i` carrying bits 7i+6..7i of `u` and a continuation
bit in all but the last; the response is OK with count `L`; every other byte of OUTBUF and everything else
is unchanged. -/
def Obligations.Venc32AppendsItsValue : Prop :=
  ∀ (s : State) (val : BitVec 64) (off : Nat), ∃ (v u : BitVec 32) (L : Nat) (t : State),
    v = val.extractLsb' 0 32 ∧ decode ⟨0b000#3, val, off⟩ = .venc32 v ∧
    u = (v <<< 1) ^^^ v.sshiftRight 31 ∧
    1 ≤ L ∧ L ≤ 5 ∧ u.toNat < 2 ^ (7 * L) ∧ (L = 1 ∨ 2 ^ (7 * (L - 1)) ≤ u.toNat) ∧
    exec (.venc32 v) s = .next t ∧
    t.outlen = s.outlen + L ∧
    (∀ i < L, t.outbuf.read (s.outlen + i) =
      some (BitVec.ofNat 8 (u.toNat / 2 ^ (7 * i) % 128 + (if i + 1 < L then 128 else 0)))) ∧
    (∀ a, (a < s.outlen ∨ s.outlen + L ≤ a) → t.outbuf.read a = s.outbuf.read a) ∧
    t.responses = s.responses ++ [.enc L] ∧ (Response.enc L).status.code = 0#2 ∧
    t.offw = s.offw ∧ t.inseq = s.inseq ∧ t.len = s.len ∧ t.requests = s.requests ∧
    t.phase = s.phase

/-- VENC64 (spec/42_varint64.md R90): the same at width 64, 1 to 10 bytes. -/
def Obligations.Venc64AppendsItsValue : Prop :=
  ∀ (s : State) (v : BitVec 64) (off : Nat), ∃ (u : BitVec 64) (L : Nat) (t : State),
    decode ⟨0b001#3, v, off⟩ = .venc64 v ∧
    u = (v <<< 1) ^^^ v.sshiftRight 63 ∧
    1 ≤ L ∧ L ≤ 10 ∧ u.toNat < 2 ^ (7 * L) ∧ (L = 1 ∨ 2 ^ (7 * (L - 1)) ≤ u.toNat) ∧
    exec (.venc64 v) s = .next t ∧
    t.outlen = s.outlen + L ∧
    (∀ i < L, t.outbuf.read (s.outlen + i) =
      some (BitVec.ofNat 8 (u.toNat / 2 ^ (7 * i) % 128 + (if i + 1 < L then 128 else 0)))) ∧
    (∀ a, (a < s.outlen ∨ s.outlen + L ≤ a) → t.outbuf.read a = s.outbuf.read a) ∧
    t.responses = s.responses ++ [.enc L] ∧ (Response.enc L).status.code = 0#2 ∧
    t.offw = s.offw ∧ t.inseq = s.inseq ∧ t.len = s.len ∧ t.requests = s.requests ∧
    t.phase = s.phase

/-- Length by signed value (spec/30_encoding.md section 2): an encode takes `L` bytes exactly when the value
lies in -2^(7L-1) .. 2^(7L-1) - 1 and not already in the range of `L - 1` bytes. -/
def Obligations.EncodedLengthFollowsTheSignedRange : Prop :=
  (∀ (s t : State) (v : BitVec 32), exec (.venc32 v) s = .next t →
    ∀ L, 1 ≤ L → L ≤ 5 → (t.outlen = s.outlen + L ↔
      (-(2 ^ (7 * L - 1) : Int) ≤ v.toInt ∧ v.toInt ≤ (2 ^ (7 * L - 1) : Int) - 1 ∧
        (L = 1 ∨ ¬ (-(2 ^ (7 * (L - 1) - 1) : Int) ≤ v.toInt ∧
          v.toInt ≤ (2 ^ (7 * (L - 1) - 1) : Int) - 1)))) ) ∧
  (∀ (s t : State) (v : BitVec 64), exec (.venc64 v) s = .next t →
    ∀ L, 1 ≤ L → L ≤ 10 → (t.outlen = s.outlen + L ↔
      (-(2 ^ (7 * L - 1) : Int) ≤ v.toInt ∧ v.toInt ≤ (2 ^ (7 * L - 1) : Int) - 1 ∧
        (L = 1 ∨ ¬ (-(2 ^ (7 * (L - 1) - 1) : Int) ≤ v.toInt ∧
          v.toInt ≤ (2 ^ (7 * (L - 1) - 1) : Int) - 1)))))

/-- The encoder's output is the shortest (spec/30_encoding.md section 2): no bytes a decoder accepts for a value
are fewer than the bytes the encode of that value appends. -/
def Obligations.NoAcceptedEncodingIsShorter : Prop :=
  (∀ (s s' t t' : State) (off o cnt : Nat) (v : BitVec 32),
    exec (.vdec32 off) s = .next s' → s'.responses = s.responses ++ [.dec32 v o cnt] →
    exec (.venc32 v) t = .next t' → t'.outlen ≤ t.outlen + cnt) ∧
  (∀ (s s' t t' : State) (off o cnt : Nat) (v : BitVec 64),
    exec (.vdec64 off) s = .next s' → s'.responses = s.responses ++ [.dec64 v o cnt] →
    exec (.venc64 v) t = .next t' → t'.outlen ≤ t.outlen + cnt)

/-- Byte identity on canonical input (spec/30_encoding.md section 2, spec/41_varint32.md section 3,
spec/42_varint64.md section 3): if the last byte a decode consumed carries a nonzero group, or is the only
one, and no bit beyond the width, then encoding the value again appends the very bytes consumed. -/
def Obligations.CanonicalBytesReencodeToThemselves : Prop :=
  (∀ (s s' t t' : State) (off o cnt : Nat) (v : BitVec 32) (b : Byte),
    exec (.vdec32 off) s = .next s' → s'.responses = s.responses ++ [.dec32 v o cnt] →
    s.inseq.read (off + cnt - 1) = some b → (cnt = 1 ∨ b ≠ 0#8) → (cnt = 5 → b.toNat < 16) →
    exec (.venc32 v) t = .next t' →
    t'.outlen = t.outlen + cnt ∧
      ∀ j < cnt, t'.outbuf.read (t.outlen + j) = s.inseq.read (off + j)) ∧
  (∀ (s s' t t' : State) (off o cnt : Nat) (v : BitVec 64) (b : Byte),
    exec (.vdec64 off) s = .next s' → s'.responses = s.responses ++ [.dec64 v o cnt] →
    s.inseq.read (off + cnt - 1) = some b → (cnt = 1 ∨ b ≠ 0#8) → (cnt = 10 → b.toNat < 2) →
    exec (.venc64 v) t = .next t' →
    t'.outlen = t.outlen + cnt ∧
      ∀ j < cnt, t'.outbuf.read (t.outlen + j) = s.inseq.read (off + j))

end Encoders

section Decoders

/-- VDEC32 (spec/41_varint32.md R82), all of its pseudocode's ends: (1) bytes that reach a clear continuation
bit within 5 bytes and within LEN give the zigzag decode of their groups, the advanced offset and the
count; (2) continuation bytes up to an index at or beyond LEN give TRUNCATED; (3) five continuation bytes
give OVERLONG, whatever follows. A fault response carries the offset unchanged and count 0. Nothing but
the list of responses changes. -/
def Obligations.Vdec32ReadsOneValue : Prop :=
  ∀ (s : State) (val : BitVec 64) (off : Nat) (b : Nat → Byte),
    decode ⟨0b010#3, val, off⟩ = .vdec32 off ∧
    (∀ L, 1 ≤ L → L ≤ 5 → off + L ≤ s.len →
      (∀ i < L, s.inseq.read (off + i) = some (b i)) →
      (∀ i, i + 1 < L → (b i).getLsbD 7 = true) → (b (L - 1)).getLsbD 7 = false →
      ∃ acc v : BitVec 32,
        acc = BitVec.ofNat 32 (∑ i ∈ Finset.range L, (b i).toNat % 128 * 2 ^ (7 * i)) ∧
        v = (acc >>> 1) ^^^ -(acc &&& 1#32) ∧
        exec (.vdec32 off) s =
          .next { s with responses := s.responses ++ [.dec32 v (off + L) L] } ∧
        (Response.dec32 v (off + L) L).status.code = 0#2 ∧
        (Response.dec32 v (off + L) L).val = some (0#32 ++ v)) ∧
    (∀ f : DecodeFault, (Response.fault f off).val = none ∧
      (Response.fault f off).off = some off ∧ (Response.fault f off).cnt = some 0) ∧
    (Response.fault .truncated off).status.code = 1#2 ∧
    (Response.fault .overlong off).status.code = 2#2 ∧
    (∀ k < 5, s.len ≤ off + k →
      (∀ i < k, off + i < s.len ∧ s.inseq.read (off + i) = some (b i) ∧ (b i).getLsbD 7 = true) →
      exec (.vdec32 off) s =
        .next { s with responses := s.responses ++ [.fault .truncated off] }) ∧
    (off + 5 ≤ s.len →
      (∀ i < 5, s.inseq.read (off + i) = some (b i) ∧ (b i).getLsbD 7 = true) →
      exec (.vdec32 off) s =
        .next { s with responses := s.responses ++ [.fault .overlong off] })

/-- VDEC64 (spec/42_varint64.md R92): the same at width 64, with 10 bytes. -/
def Obligations.Vdec64ReadsOneValue : Prop :=
  ∀ (s : State) (val : BitVec 64) (off : Nat) (b : Nat → Byte),
    decode ⟨0b011#3, val, off⟩ = .vdec64 off ∧
    (∀ L, 1 ≤ L → L ≤ 10 → off + L ≤ s.len →
      (∀ i < L, s.inseq.read (off + i) = some (b i)) →
      (∀ i, i + 1 < L → (b i).getLsbD 7 = true) → (b (L - 1)).getLsbD 7 = false →
      ∃ acc v : BitVec 64,
        acc = BitVec.ofNat 64 (∑ i ∈ Finset.range L, (b i).toNat % 128 * 2 ^ (7 * i)) ∧
        v = (acc >>> 1) ^^^ -(acc &&& 1#64) ∧
        exec (.vdec64 off) s =
          .next { s with responses := s.responses ++ [.dec64 v (off + L) L] } ∧
        (Response.dec64 v (off + L) L).status.code = 0#2 ∧
        (Response.dec64 v (off + L) L).val = some v) ∧
    (∀ f : DecodeFault, (Response.fault f off).val = none ∧
      (Response.fault f off).off = some off ∧ (Response.fault f off).cnt = some 0) ∧
    (Response.fault .truncated off).status.code = 1#2 ∧
    (Response.fault .overlong off).status.code = 2#2 ∧
    (∀ k < 10, s.len ≤ off + k →
      (∀ i < k, off + i < s.len ∧ s.inseq.read (off + i) = some (b i) ∧ (b i).getLsbD 7 = true) →
      exec (.vdec64 off) s =
        .next { s with responses := s.responses ++ [.fault .truncated off] }) ∧
    (off + 10 ≤ s.len →
      (∀ i < 10, s.inseq.read (off + i) = some (b i) ∧ (b i).getLsbD 7 = true) →
      exec (.vdec64 off) s =
        .next { s with responses := s.responses ++ [.fault .overlong off] })

/-- Every decode answers (spec/10_state.md R14, spec/20_memory.md R48): in a state the hardware can be in, a
decode at any offset gives exactly one response of its operation, and a value's new offset stays within
LEN, so it never wraps. -/
def Obligations.EveryDecodeAnswers : Prop :=
  ∀ (s : State) (off : Nat), s.Inv →
    (∃ rsp : Response,
      exec (.vdec32 off) s = .next { s with responses := s.responses ++ [rsp] } ∧
      ((∃ v cnt, rsp = .dec32 v (off + cnt) cnt ∧ 1 ≤ cnt ∧ cnt ≤ 5 ∧ off + cnt ≤ s.len) ∨
        (∃ f, rsp = .fault f off))) ∧
    (∃ rsp : Response,
      exec (.vdec64 off) s = .next { s with responses := s.responses ++ [rsp] } ∧
      ((∃ v cnt, rsp = .dec64 v (off + cnt) cnt ∧ 1 ≤ cnt ∧ cnt ≤ 10 ∧ off + cnt ≤ s.len) ∨
        (∃ f, rsp = .fault f off)))

/-- Which fault an input gets (spec/60_exceptions.md R105): with `avail` the bytes available from the offset,
(a) a clear continuation bit among the first min(N, avail) bytes: no fault; (b) else with `avail` at least
N: OVERLONG; (c) else TRUNCATED. For both widths. -/
def Obligations.FaultFollowsTheOrderOfTheChecks : Prop :=
  ∀ (s : State) (off : Nat), s.Inv →
    (∀ t rsp, exec (.vdec32 off) s = .next t → t.responses = s.responses ++ [rsp] →
      ((∃ i b, i < min 5 (s.len - off) ∧ s.inseq.read (off + i) = some b ∧ b.getLsbD 7 = false) →
        rsp.status = .ok) ∧
      ((¬ ∃ i b, i < min 5 (s.len - off) ∧ s.inseq.read (off + i) = some b ∧ b.getLsbD 7 = false) →
        (5 ≤ s.len - off → rsp.status = .overlong) ∧
        (s.len - off < 5 → rsp.status = .truncated))) ∧
    (∀ t rsp, exec (.vdec64 off) s = .next t → t.responses = s.responses ++ [rsp] →
      ((∃ i b, i < min 10 (s.len - off) ∧ s.inseq.read (off + i) = some b ∧ b.getLsbD 7 = false) →
        rsp.status = .ok) ∧
      ((¬ ∃ i b, i < min 10 (s.len - off) ∧ s.inseq.read (off + i) = some b ∧ b.getLsbD 7 = false) →
        (10 ≤ s.len - off → rsp.status = .overlong) ∧
        (s.len - off < 10 → rsp.status = .truncated)))

/-- A decode depends on the bytes it consumes alone (spec/20_memory.md R41): change anything of the input but
the bytes off .. off+cnt-1, and LEN to any bound that still holds them, and the response is the same. -/
def Obligations.DecodeDependsOnConsumedBytesOnly : Prop :=
  (∀ (s t : State) (off o cnt : Nat) (v : BitVec 32) (m : Memory) (len : Nat),
    exec (.vdec32 off) s = .next t → t.responses = s.responses ++ [.dec32 v o cnt] →
    (∀ i < cnt, m.read (off + i) = s.inseq.read (off + i)) → off + cnt ≤ len →
    exec (.vdec32 off) { s with inseq := m, len := len } = .next { t with inseq := m, len := len }) ∧
  (∀ (s t : State) (off o cnt : Nat) (v : BitVec 64) (m : Memory) (len : Nat),
    exec (.vdec64 off) s = .next t → t.responses = s.responses ++ [.dec64 v o cnt] →
    (∀ i < cnt, m.read (off + i) = s.inseq.read (off + i)) → off + cnt ≤ len →
    exec (.vdec64 off) { s with inseq := m, len := len } = .next { t with inseq := m, len := len })

/-- Where the model stops (its own choice, log 3): a decode that, after `k` continuation bytes, needs a byte
below LEN which the host's storage does not hold ends in the fault `inseqByteAbsent` at its index. -/
def Obligations.MissingInputByteStopsTheModel : Prop :=
  ∀ (s : State) (off : Nat) (b : Nat → Byte),
    (∀ k < 5, off + k < s.len →
      (∀ i < k, s.inseq.read (off + i) = some (b i) ∧ (b i).getLsbD 7 = true) →
      s.inseq.read (off + k) = none →
      exec (.vdec32 off) s = .fault (.inseqByteAbsent (off + k))) ∧
    (∀ k < 10, off + k < s.len →
      (∀ i < k, s.inseq.read (off + i) = some (b i) ∧ (b i).getLsbD 7 = true) →
      s.inseq.read (off + k) = none →
      exec (.vdec64 off) s = .fault (.inseqByteAbsent (off + k)))

end Decoders

section Frames

/-- The frame of the six commands that store nothing (spec/20_memory.md R32, spec/41_varint32.md R82,
spec/42_varint64.md R92): a next state differs from the state before in one response more, nothing else. -/
def Obligations.NonStoringCommandsOnlyRespond : Prop :=
  ∀ (i : Instr) (s t : State), (∀ v, i ≠ .venc32 v) → (∀ v, i ≠ .venc64 v) →
    exec i s = .next t →
    ∃ rsp : Response, t.responses = s.responses ++ [rsp] ∧ t.offw = s.offw ∧
      t.outlen = s.outlen ∧ (∀ a, t.outbuf.read a = s.outbuf.read a) ∧ t.outbuf = s.outbuf ∧
      (∀ a, t.inseq.read a = s.inseq.read a) ∧ t.inseq = s.inseq ∧ t.len = s.len ∧
      t.requests = s.requests ∧ t.phase = s.phase

/-- No operation reads what an earlier one left (spec/10_state.md R10, spec/41_varint32.md R81): in two states
with the same INSEQ and LEN, whatever their history, a command appends the same bytes and gives the same
response. -/
def Obligations.CommandsDependOnNoHistory : Prop :=
  ∀ (i : Instr) (s s' t t' : State), s.inseq = s'.inseq → s.len = s'.len →
    exec i s = .next t → exec i s' = .next t' →
    ∃ (rsp : Response) (n : Nat), t.responses = s.responses ++ [rsp] ∧
      t'.responses = s'.responses ++ [rsp] ∧ t.outlen = s.outlen + n ∧ t'.outlen = s'.outlen + n ∧
      ∀ j < n, t.outbuf.read (s.outlen + j) = t'.outbuf.read (s'.outlen + j)

/-- Six of the eight operations cannot fail (spec/60_exceptions.md R100): each of them answers with status OK in
every state. A decode responds with another status for one of two causes only: the next byte needed is not
below LEN (TRUNCATED, R101), or the last byte the width allows asks for another (OVERLONG, R102). -/
def Obligations.OnlyDecodesReportAFault : Prop :=
  (∀ (i : Instr) (s : State), (∀ off, i ≠ .vdec32 off) → (∀ off, i ≠ .vdec64 off) →
    ∃ (t : State) (rsp : Response), exec i s = .next t ∧ t.responses = s.responses ++ [rsp] ∧
      rsp.status.code = 0#2) ∧
  (∀ (s t : State) (off : Nat) (rsp : Response), exec (.vdec32 off) s = .next t →
    t.responses = s.responses ++ [rsp] → rsp.status.code ≠ 0#2 →
    (rsp = .fault .truncated off ∧ ∃ k < 5, s.len ≤ off + k ∧
      ∀ i < k, off + i < s.len ∧ ∃ b, s.inseq.read (off + i) = some b ∧ b.getLsbD 7 = true) ∨
    (rsp = .fault .overlong off ∧ off + 5 ≤ s.len ∧
      ∀ i < 5, ∃ b, s.inseq.read (off + i) = some b ∧ b.getLsbD 7 = true)) ∧
  (∀ (s t : State) (off : Nat) (rsp : Response), exec (.vdec64 off) s = .next t →
    t.responses = s.responses ++ [rsp] → rsp.status.code ≠ 0#2 →
    (rsp = .fault .truncated off ∧ ∃ k < 10, s.len ≤ off + k ∧
      ∀ i < k, off + i < s.len ∧ ∃ b, s.inseq.read (off + i) = some b ∧ b.getLsbD 7 = true) ∨
    (rsp = .fault .overlong off ∧ off + 10 ≤ s.len ∧
      ∀ i < 10, ∃ b, s.inseq.read (off + i) = some b ∧ b.getLsbD 7 = true))

end Frames

section RoundTrips

/-- Round trip at width 32 (spec/41_varint32.md section 3): what VENC32 appended, laid out anywhere in INSEQ
within LEN, is read back by VDEC32 as the same value, with the count and the offset after it. -/
def Obligations.Vdec32ReadsBackWhatVenc32Appended : Prop :=
  ∀ (s t s' : State) (v : BitVec 32) (off cnt : Nat),
    exec (.venc32 v) s = .next t → t.outlen = s.outlen + cnt →
    (∀ j < cnt, s'.inseq.read (off + j) = t.outbuf.read (s.outlen + j)) → off + cnt ≤ s'.len →
    exec (.vdec32 off) s' =
      .next { s' with responses := s'.responses ++ [.dec32 v (off + cnt) cnt] }

/-- Round trip at width 64 (spec/42_varint64.md section 3). -/
def Obligations.Vdec64ReadsBackWhatVenc64Appended : Prop :=
  ∀ (s t s' : State) (v : BitVec 64) (off cnt : Nat),
    exec (.venc64 v) s = .next t → t.outlen = s.outlen + cnt →
    (∀ j < cnt, s'.inseq.read (off + j) = t.outbuf.read (s.outlen + j)) → off + cnt ≤ s'.len →
    exec (.vdec64 off) s' =
      .next { s' with responses := s'.responses ++ [.dec64 v (off + cnt) cnt] }

/-- The cursor discipline (spec/41_varint32.md section 3, spec/42_varint64.md section 3): any number of values
encoded one after another and decoded one after another, each decode starting at the offset the one before
returned, come back in order, and the last offset is where the bytes end. -/
def Obligations.SequencesDecodeInOrder : Prop :=
  (∀ (vs : List (BitVec 32)) (s t s' : State) (off cnt : Nat),
    execAll (vs.map .venc32) s = .next t → t.outlen = s.outlen + cnt →
    (∀ j < cnt, s'.inseq.read (off + j) = t.outbuf.read (s.outlen + j)) → off + cnt ≤ s'.len →
    decodeChain32 vs.length off s' = some (vs, off + cnt)) ∧
  (∀ (vs : List (BitVec 64)) (s t s' : State) (off cnt : Nat),
    execAll (vs.map .venc64) s = .next t → t.outlen = s.outlen + cnt →
    (∀ j < cnt, s'.inseq.read (off + j) = t.outbuf.read (s.outlen + j)) → off + cnt ≤ s'.len →
    decodeChain64 vs.length off s' = some (vs, off + cnt))

/-- The two widths against each other (spec/42_varint64.md section 3): (a) a value that fits 32 bits is
appended as the same bytes at both widths; (b) VDEC64 of the bytes of VENC32 v gives v sign extended;
(c) VDEC32 of the bytes of VENC64 v gives zz_dec_32 of the low half of its magnitude when they are at most
5, and OVERLONG when they are more. -/
def Obligations.WidthsAgreeWhereTheValueFits : Prop :=
  (∀ (s t t' : State) (v : BitVec 32),
    exec (.venc32 v) s = .next t → exec (.venc64 (v.signExtend 64)) s = .next t' → t = t') ∧
  (∀ (s t s' : State) (v : BitVec 32) (off cnt : Nat),
    exec (.venc32 v) s = .next t → t.outlen = s.outlen + cnt →
    (∀ j < cnt, s'.inseq.read (off + j) = t.outbuf.read (s.outlen + j)) → off + cnt ≤ s'.len →
    exec (.vdec64 off) s' =
      .next { s' with responses := s'.responses ++ [.dec64 (v.signExtend 64) (off + cnt) cnt] }) ∧
  (∀ (s t s' : State) (v : BitVec 64) (off cnt : Nat),
    exec (.venc64 v) s = .next t → t.outlen = s.outlen + cnt →
    (∀ j < cnt, s'.inseq.read (off + j) = t.outbuf.read (s.outlen + j)) → off + cnt ≤ s'.len →
    (cnt ≤ 5 → exec (.vdec32 off) s' =
      .next { s' with responses := s'.responses ++
        [.dec32 (zzDec ((zzEnc v).setWidth 32)) (off + cnt) cnt] }) ∧
    (5 < cnt → exec (.vdec32 off) s' =
      .next { s' with responses := s'.responses ++ [.fault .overlong off] }))

end RoundTrips

section PortsAndReset

/-- What stands on the response port while a response is offered (spec/10_state.md R14, R15,
spec/60_exceptions.md R103): `rsp_valid`, the status code, the value with a 32-bit one zero extended, the offset
and the count, for each kind of response, wherever R14 defines them; and in every response a 32-bit operation
can give, one without a value too, the upper half of `rsp_val` zero (spec/93_implementation_defined.md U8). -/
def Obligations.ResponsePortCarriesTheResponse : Prop :=
  ∀ (instant : Nat) (s : State) (req : Request),
    (∀ v : BitVec 32, s.phase = .respond req (.zz32 v) →
      (s.wires instant).rspValid = true ∧ (s.wires instant).rspStatus = 0#2 ∧
      (s.wires instant).rspVal = 0#32 ++ v) ∧
    (∀ v : BitVec 64, s.phase = .respond req (.zz64 v) →
      (s.wires instant).rspValid = true ∧ (s.wires instant).rspStatus = 0#2 ∧
      (s.wires instant).rspVal = v) ∧
    (∀ k : Nat, s.phase = .respond req (.enc k) →
      (s.wires instant).rspValid = true ∧ (s.wires instant).rspStatus = 0#2 ∧
      (s.wires instant).rspCnt = BitVec.ofNat 4 k) ∧
    (∀ (v : BitVec 32) (o k : Nat), s.phase = .respond req (.dec32 v o k) →
      (s.wires instant).rspValid = true ∧ (s.wires instant).rspStatus = 0#2 ∧
      (s.wires instant).rspVal = 0#32 ++ v ∧ (s.wires instant).rspOff = o ∧
      (s.wires instant).rspCnt = BitVec.ofNat 4 k) ∧
    (∀ (v : BitVec 64) (o k : Nat), s.phase = .respond req (.dec64 v o k) →
      (s.wires instant).rspValid = true ∧ (s.wires instant).rspStatus = 0#2 ∧
      (s.wires instant).rspVal = v ∧ (s.wires instant).rspOff = o ∧
      (s.wires instant).rspCnt = BitVec.ofNat 4 k) ∧
    (∀ (o : Nat), s.phase = .respond req (.fault .truncated o) →
      (s.wires instant).rspValid = true ∧ (s.wires instant).rspStatus = 1#2 ∧
      (s.wires instant).rspOff = o ∧ (s.wires instant).rspCnt = 0#4) ∧
    (∀ (o : Nat), s.phase = .respond req (.fault .overlong o) →
      (s.wires instant).rspValid = true ∧ (s.wires instant).rspStatus = 2#2 ∧
      (s.wires instant).rspOff = o ∧ (s.wires instant).rspCnt = 0#4) ∧
    (∀ rsp : Response, s.phase = .respond req rsp → rsp.answers (decode req) →
      req.op.getLsbD 0 = false → (s.wires instant).rspVal.extractLsb' 32 32 = 0#32)

/-- The core's side of the handshakes (spec/10_state.md R22, spec/20_memory.md R36, R41,
spec/70_reset_and_hazards.md R130): exactly one port is offered at every instant, ready goes up exactly when the
core is idle, a read asks for one of the N bytes from the request's offset and always below LEN, an offered
status is never code 3, and offsets and indices fit OFFW. That an idle core always raises `req_ready` is the
model's choice (log 7), and so is that a busy core always offers something: the model has no time in which it
would not (log 9, log 18). -/
def Obligations.PortsKeepTheCoresPromises : Prop :=
  ∀ (instant : Nat) (s : State), s.Inv →
    ((s.wires instant).reqReady = true ↔ s.phase = .idle) ∧
    ([(s.wires instant).reqReady, (s.wires instant).rspValid, (s.wires instant).apValid,
      (s.wires instant).rdValid].count true = 1) ∧
    ((s.wires instant).rspValid = true → (s.wires instant).rspStatus ≠ 3#2) ∧
    ((s.wires instant).rdValid = true → (s.wires instant).rdIdx < s.len ∧
      ∃ (req : Request) (k : Nat), (s.wires instant).rdIdx = req.off + k ∧
        ((∃ acc, s.phase = .decode32 req acc k ∧ k < 5) ∨
          (∃ acc, s.phase = .decode64 req acc k ∧ k < 10))) ∧
    (s.wires instant).rspOff < 2 ^ s.offw ∧ (s.wires instant).rdIdx < 2 ^ s.offw

/-- Reset (spec/10_state.md R21): from any state, `rst` leaves the core idle with no response pending,
`rsp_valid`, `ap_valid` and `rd_valid` 0 and `req_ready` free to be 1, and does not touch OUTBUF, OUTLEN,
INSEQ or LEN; the state the machine starts in is of that kind. That `req_ready` is then 1, and that the host's
commands and the responses it has taken stay, is the model's choice (log 7, log 17). -/
def Obligations.ResetLeavesTheCoreIdle : Prop :=
  (∀ (instant : Nat) (s : State), ∃ t : State, beat .reset s = .next t ∧ t.phase = .idle ∧
    (t.wires instant).reqReady = true ∧ (t.wires instant).rspValid = false ∧
    (t.wires instant).apValid = false ∧ (t.wires instant).rdValid = false ∧
    t.outbuf = s.outbuf ∧ t.outlen = s.outlen ∧ t.inseq = s.inseq ∧ t.len = s.len ∧
    t.offw = s.offw ∧ t.requests = s.requests ∧ t.responses = s.responses) ∧
  beat .reset State.reset = .next State.reset

/-- Reset during an operation (spec/70_reset_and_hazards.md R121): an encode abandoned after `j` of its bytes
leaves exactly those `j` bytes at the end of OUTBUF, each with its continuation bit set, and gives no
response; reset after an acceptance or a read beat leaves all but the list of commands as it was before that
beat, so a decode abandoned by reset has changed nothing. That the abandoned command stays off the host's
list, and that the responses taken stay, is the model's choice (log 17). -/
def Obligations.ResetDuringAnOperationAbandonsIt : Prop :=
  (∀ (s : State) (r : Request) (rs : List Request) (j : Nat), s.phase = .idle →
    s.requests = r :: rs → j < (storedBytes (decode r)).length →
    ∃ t t' : State, fairBeats (j + 1) s = .next t ∧ t.phase ≠ .idle ∧
      beat .reset t = .next t' ∧ t'.phase = .idle ∧ t'.requests = rs ∧
      t'.responses = s.responses ∧ t'.outlen = s.outlen + j ∧
      (∀ i < j, t'.outbuf.read (s.outlen + i) = (storedBytes (decode r))[i]? ∧
        ∀ b, (storedBytes (decode r))[i]? = some b → b.getLsbD 7 = true) ∧
      (∀ a, (a < s.outlen ∨ s.outlen + j ≤ a) → t'.outbuf.read a = s.outbuf.read a) ∧
      t'.inseq = s.inseq ∧ t'.len = s.len ∧ t'.offw = s.offw) ∧
  (∀ (s t : State) (r : Request) (rs : List Request), s.requests = r :: rs →
    beat .accept s = .next t →
    beat .reset t = .next { s with requests := rs, phase := .idle }) ∧
  (∀ (s t : State) (b : Byte), beat (.readAnswer b) s = .next t →
    beat .reset t = .next { s with phase := .idle })

/-- A decode whose host answers reads with bytes of its own (spec/70_reset_and_hazards.md R124): whatever INSEQ
holds, the response is that of a decode of the bytes the read port returned, for each way the bytes can end:
(a) a clear continuation bit within the `n` bytes the width allows gives a value; (b) `n` continuation bytes
give OVERLONG; (c) fewer than `n` continuation bytes, returned up to LEN, give TRUNCATED. -/
def Obligations.DecodeUsesTheBytesTheReadPortReturned : Prop :=
  ∀ (s : State) (r : Request) (rs : List Request) (bs : List Byte) (n : Nat),
    s.phase = .idle → s.requests = r :: rs →
    ((∃ off, decode r = .vdec32 off) ∧ n = 5 ∨ (∃ off, decode r = .vdec64 off) ∧ n = 10) →
    (bs ≠ [] → r.off + bs.length ≤ s.len) →
    ∀ ending : Status,
      (ending = .ok → bs.length ≤ n ∧ ∃ (cs : List Byte) (b : Byte), bs = cs ++ [b] ∧
        (∀ c ∈ cs, c.getLsbD 7 = true) ∧ b.getLsbD 7 = false) →
      (ending = .overlong → bs.length = n ∧ ∀ c ∈ bs, c.getLsbD 7 = true) →
      (ending = .truncated → bs.length < n ∧ s.len ≤ r.off + bs.length ∧
        ∀ c ∈ bs, c.getLsbD 7 = true) →
      ∃ rsp : Response, rsp.status = ending ∧ rsp.answers (decode r) ∧
        beats (.accept :: bs.map .readAnswer ++ [.takeResponse]) s =
          .next { s with requests := rs, responses := s.responses ++ [rsp] } ∧
        exec (decode r) { s with inseq := Memory.ofBytes r.off bs, requests := rs } =
          .next { s with inseq := Memory.ofBytes r.off bs, requests := rs,
                         responses := s.responses ++ [rsp] }

/-- What the host may not do is refused by name (the model's choice, log 10, for what
spec/93_implementation_defined.md U6 and U12 have a model refuse): changing the input during a decode, appending
from elsewhere during an encode, a command accepted by a busy core. -/
def Obligations.ForbiddenHostMovesAreRefused : Prop :=
  ∀ s : State,
    (s.phase.decoding = true → ∀ (m : Memory) (len : Nat),
      beat (.driveInput m len) s = .refused .inputChangedDuringDecode) ∧
    (s.phase.encoding = true → ∀ b : Byte,
      beat (.foreignAppend b) s = .refused .foreignAppendDuringEncode) ∧
    (s.phase ≠ .idle → beat .accept s = .refused .handshakeNotOffered)

end PortsAndReset
end

