-- ==== Sys2Proof/Laws/Memory.lean ====
section
/-! SUPPORT. The laws of the byte spaces: a read after a write, the canonical form, and the sequences a host
lays out. -/

namespace Sys2Proof.Machine

@[simp] theorem Memory.read_nil (i : Nat) : Memory.read [] i = none := rfl

theorem Memory.read_cons (a : Nat) (b : Byte) (m : Memory) (i : Nat) :
    Memory.read ((a, b) :: m) i = if a = i then some b else Memory.read m i := rfl

/-- The one law of `write`: the written address holds the byte, every other address what it held. -/
theorem Memory.read_write (m : Memory) (i j : Nat) (v : Byte) :
    (m.write i v).read j = if i = j then some v else m.read j := by
  induction m with
  | nil => simp [Memory.write, Memory.read_cons]
  | cons c m ih =>
    obtain ⟨a, b⟩ := c
    rcases Nat.lt_trichotomy i a with h | h | h
    · rw [Memory.write, if_pos h, Memory.read_cons]
    · subst h
      by_cases hj : i = j <;> simp [Memory.write, Memory.read_cons, hj]
    · rw [Memory.write, if_neg (by omega), if_neg (by omega), Memory.read_cons, Memory.read_cons, ih]
      by_cases hj : a = j
      · rw [if_pos hj, if_neg (by omega), if_pos hj]
      · rw [if_neg hj, if_neg hj]

@[simp] theorem Memory.read_write_same (m : Memory) (i : Nat) (v : Byte) :
    (m.write i v).read i = some v := by
  simp [Memory.read_write]

theorem Memory.read_write_other (m : Memory) {i j : Nat} (v : Byte) (h : i ≠ j) :
    (m.write i v).read j = m.read j := by
  simp [Memory.read_write, h]

/-- An address of `write` is the written one or one that was there. -/
theorem Memory.mem_write {m : Memory} {i : Nat} {v : Byte} {c : Host.Cell} (h : c ∈ m.write i v) :
    c = (i, v) ∨ c ∈ m := by
  induction m with
  | nil => simpa [Memory.write] using h
  | cons d m ih =>
    obtain ⟨a, b⟩ := d
    simp only [Memory.write] at h
    split_ifs at h with h1 h2
    · simpa using h
    · rcases List.mem_cons.1 h with h | h
      · exact .inl h
      · exact .inr (List.mem_cons_of_mem _ h)
    · rcases List.mem_cons.1 h with h | h
      · exact .inr (h ▸ List.mem_cons_self)
      · exact (ih h).imp id (List.mem_cons_of_mem _)

/-- A write keeps the canonical form. -/
theorem Memory.write_wf {m : Memory} (h : m.wf) (i : Nat) (v : Byte) : (m.write i v).wf := by
  induction m with
  | nil => simp [Memory.write, Memory.wf]
  | cons d m ih =>
    obtain ⟨a, b⟩ := d
    obtain ⟨hd, hm⟩ := List.pairwise_cons.1 h
    simp only [Memory.write]
    split_ifs with h1 h2
    · refine List.pairwise_cons.2 ⟨fun c hc => ?_, h⟩
      rcases List.mem_cons.1 hc with rfl | hc
      · exact h1
      · exact h1.trans (hd c hc)
    · subst h2; exact List.pairwise_cons.2 ⟨hd, hm⟩
    · refine List.pairwise_cons.2 ⟨fun c hc => ?_, ih hm⟩
      rcases Memory.mem_write hc with rfl | hc
      · show a < i; omega
      · exact hd c hc

/-- A write beyond every address held adds the byte at the end. -/
theorem Memory.write_end {m : Memory} {i : Nat} (v : Byte) (h : ∀ c ∈ m, c.1 < i) :
    m.write i v = m ++ [(i, v)] := by
  induction m with
  | nil => rfl
  | cons d m ih =>
    obtain ⟨a, b⟩ := d
    have ha : a < i := h (a, b) List.mem_cons_self
    rw [Memory.write, if_neg (by omega), if_neg (by omega),
      ih fun c hc => h c (List.mem_cons_of_mem _ hc)]
    rfl

/-- An address holds a byte exactly if it is listed. -/
theorem Memory.read_isSome (m : Memory) (i : Nat) :
    (m.read i).isSome = true ↔ i ∈ m.map Prod.fst := by
  induction m with
  | nil => simp
  | cons d m ih =>
    obtain ⟨a, b⟩ := d
    rw [Memory.read_cons]
    by_cases h : a = i
    · simp [h]
    · simp [h, ih, Ne.symm h]

/-- A full space is in canonical form. -/
theorem Memory.wf_of_full {m : Memory} {n : Nat} (h : m.map Prod.fst = List.range n) : m.wf := by
  have hp : (m.map Prod.fst).Pairwise (· < ·) := h ▸ List.pairwise_lt_range
  exact List.pairwise_map.1 hp

/-- A full space grows by one when the byte after its last is written. -/
theorem Memory.write_full {m : Memory} {n : Nat} (h : m.map Prod.fst = List.range n) (v : Byte) :
    (m.write n v).map Prod.fst = List.range (n + 1) := by
  rw [Memory.write_end v, List.map_append, h, List.range_succ]
  · rfl
  · intro c hc
    have : c.1 ∈ m.map Prod.fst := List.mem_map_of_mem hc
    rwa [h, List.mem_range] at this

/-- The sequence a host lays out from `i` holds byte `j` of it at `i + j`, and nothing elsewhere. -/
theorem Memory.read_ofBytes (i : Nat) (bs : List Byte) (a : Nat) :
    (Memory.ofBytes i bs).read a = if i ≤ a then bs[a - i]? else none := by
  induction bs generalizing i with
  | nil => simp [Memory.ofBytes]
  | cons b bs ih =>
    rw [Memory.ofBytes, Memory.read_cons, ih]
    by_cases h : i = a
    · simp [h]
    · by_cases h2 : i ≤ a
      · have : a - i = (a - (i + 1)) + 1 := by omega
        rw [if_neg h, if_pos (by omega), if_pos h2, this, List.getElem?_cons_succ]
      · rw [if_neg h, if_neg (by omega), if_neg h2]

theorem Memory.ofBytes_addr {i : Nat} {bs : List Byte} {c : Host.Cell}
    (h : c ∈ Memory.ofBytes i bs) : i ≤ c.1 := by
  induction bs generalizing i with
  | nil => simp [Memory.ofBytes] at h
  | cons b bs ih =>
    rcases List.mem_cons.1 h with rfl | h
    · exact le_rfl
    · exact Nat.le_of_succ_le (ih h)

/-- What a host lays out is in canonical form. -/
theorem Memory.ofBytes_wf (i : Nat) (bs : List Byte) : (Memory.ofBytes i bs).wf := by
  induction bs generalizing i with
  | nil => simp [Memory.ofBytes, Memory.wf]
  | cons b bs ih => exact List.pairwise_cons.2 ⟨fun c hc => Memory.ofBytes_addr hc, ih (i + 1)⟩

end Sys2Proof.Machine
end

