-- ==== Sys2Proof/Laws/State.lean ====
section
/-! SUPPORT. One lemma per field and update of State, so that no later proof unfolds a record update. -/

namespace Sys2Proof.Machine

section Updates

variable (s : State) (b : Byte) (r : Response) (f : DecodeFault) (off : Nat) (p : Phase)
variable (rs : List Request) (q : Request) (m : Memory) (n : Nat)

@[simp] theorem State.append_offw : (s.append b).offw = s.offw := rfl
@[simp] theorem State.append_outbuf : (s.append b).outbuf = s.outbuf.write s.outlen b := rfl
@[simp] theorem State.append_outlen : (s.append b).outlen = s.outlen + 1 := rfl
@[simp] theorem State.append_inseq : (s.append b).inseq = s.inseq := rfl
@[simp] theorem State.append_len : (s.append b).len = s.len := rfl
@[simp] theorem State.append_requests : (s.append b).requests = s.requests := rfl
@[simp] theorem State.append_phase : (s.append b).phase = s.phase := rfl
@[simp] theorem State.append_responses : (s.append b).responses = s.responses := rfl

@[simp] theorem State.respond_offw : (s.respond r).offw = s.offw := rfl
@[simp] theorem State.respond_outbuf : (s.respond r).outbuf = s.outbuf := rfl
@[simp] theorem State.respond_outlen : (s.respond r).outlen = s.outlen := rfl
@[simp] theorem State.respond_inseq : (s.respond r).inseq = s.inseq := rfl
@[simp] theorem State.respond_len : (s.respond r).len = s.len := rfl
@[simp] theorem State.respond_requests : (s.respond r).requests = s.requests := rfl
@[simp] theorem State.respond_phase : (s.respond r).phase = s.phase := rfl
@[simp] theorem State.respond_responses : (s.respond r).responses = s.responses ++ [r] := rfl

@[simp] theorem State.raise_offw : (s.raise f off).offw = s.offw := rfl
@[simp] theorem State.raise_outbuf : (s.raise f off).outbuf = s.outbuf := rfl
@[simp] theorem State.raise_outlen : (s.raise f off).outlen = s.outlen := rfl
@[simp] theorem State.raise_inseq : (s.raise f off).inseq = s.inseq := rfl
@[simp] theorem State.raise_len : (s.raise f off).len = s.len := rfl
@[simp] theorem State.raise_requests : (s.raise f off).requests = s.requests := rfl
@[simp] theorem State.raise_phase : (s.raise f off).phase = s.phase := rfl
@[simp] theorem State.raise_responses : (s.raise f off).responses = s.responses ++ [.fault f off] := rfl

@[simp] theorem State.withPhase_offw : (s.withPhase p).offw = s.offw := rfl
@[simp] theorem State.withPhase_outbuf : (s.withPhase p).outbuf = s.outbuf := rfl
@[simp] theorem State.withPhase_outlen : (s.withPhase p).outlen = s.outlen := rfl
@[simp] theorem State.withPhase_inseq : (s.withPhase p).inseq = s.inseq := rfl
@[simp] theorem State.withPhase_len : (s.withPhase p).len = s.len := rfl
@[simp] theorem State.withPhase_requests : (s.withPhase p).requests = s.requests := rfl
@[simp] theorem State.withPhase_phase : (s.withPhase p).phase = p := rfl
@[simp] theorem State.withPhase_responses : (s.withPhase p).responses = s.responses := rfl

@[simp] theorem State.withRequests_offw : (s.withRequests rs).offw = s.offw := rfl
@[simp] theorem State.withRequests_outbuf : (s.withRequests rs).outbuf = s.outbuf := rfl
@[simp] theorem State.withRequests_outlen : (s.withRequests rs).outlen = s.outlen := rfl
@[simp] theorem State.withRequests_inseq : (s.withRequests rs).inseq = s.inseq := rfl
@[simp] theorem State.withRequests_len : (s.withRequests rs).len = s.len := rfl
@[simp] theorem State.withRequests_requests : (s.withRequests rs).requests = rs := rfl
@[simp] theorem State.withRequests_phase : (s.withRequests rs).phase = s.phase := rfl
@[simp] theorem State.withRequests_responses : (s.withRequests rs).responses = s.responses := rfl

@[simp] theorem State.withInput_offw : (s.withInput m n).offw = s.offw := rfl
@[simp] theorem State.withInput_outbuf : (s.withInput m n).outbuf = s.outbuf := rfl
@[simp] theorem State.withInput_outlen : (s.withInput m n).outlen = s.outlen := rfl
@[simp] theorem State.withInput_inseq : (s.withInput m n).inseq = m := rfl
@[simp] theorem State.withInput_len : (s.withInput m n).len = n := rfl
@[simp] theorem State.withInput_requests : (s.withInput m n).requests = s.requests := rfl
@[simp] theorem State.withInput_phase : (s.withInput m n).phase = s.phase := rfl
@[simp] theorem State.withInput_responses : (s.withInput m n).responses = s.responses := rfl

@[simp] theorem State.offering_offw : (s.offering q).offw = s.offw := rfl
@[simp] theorem State.offering_outbuf : (s.offering q).outbuf = s.outbuf := rfl
@[simp] theorem State.offering_outlen : (s.offering q).outlen = s.outlen := rfl
@[simp] theorem State.offering_inseq : (s.offering q).inseq = s.inseq := rfl
@[simp] theorem State.offering_len : (s.offering q).len = s.len := rfl
@[simp] theorem State.offering_requests : (s.offering q).requests = q :: s.requests := rfl
@[simp] theorem State.offering_phase : (s.offering q).phase = .idle := rfl
@[simp] theorem State.offering_responses : (s.offering q).responses = s.responses := rfl

@[simp] theorem State.resetCore_offw : (s.resetCore).offw = s.offw := rfl
@[simp] theorem State.resetCore_outbuf : (s.resetCore).outbuf = s.outbuf := rfl
@[simp] theorem State.resetCore_outlen : (s.resetCore).outlen = s.outlen := rfl
@[simp] theorem State.resetCore_inseq : (s.resetCore).inseq = s.inseq := rfl
@[simp] theorem State.resetCore_len : (s.resetCore).len = s.len := rfl
@[simp] theorem State.resetCore_requests : (s.resetCore).requests = s.requests := rfl
@[simp] theorem State.resetCore_phase : (s.resetCore).phase = .idle := rfl
@[simp] theorem State.resetCore_responses : (s.resetCore).responses = s.responses := rfl

end Updates

end Sys2Proof.Machine
end

