-- ==== Sys2Proof/Laws/Ops.lean ====
section
/-! SUPPORT. What each shared operation does, said once: appending bytes, and the decode loop. -/

namespace Sys2Proof.Machine

section AppendAll

variable (s : State) (bs cs : List Byte) (b : Byte)

@[simp] theorem State.appendAll_nil : s.appendAll [] = s := rfl

theorem State.appendAll_cons : s.appendAll (b :: bs) = (s.append b).appendAll bs := rfl

theorem State.appendAll_append : s.appendAll (bs ++ cs) = (s.appendAll bs).appendAll cs := by
  induction bs generalizing s with
  | nil => rfl
  | cons b bs ih => exact ih (s.append b)

@[simp] theorem State.appendAll_outlen : (s.appendAll bs).outlen = s.outlen + bs.length := by
  induction bs generalizing s with
  | nil => rfl
  | cons b bs ih => rw [appendAll_cons, ih, append_outlen, List.length_cons]; omega

/-- Appending changes OUTBUF and OUTLEN only. -/
theorem State.appendAll_frame :
    s.appendAll bs =
      { s with outbuf := (s.appendAll bs).outbuf, outlen := s.outlen + bs.length } := by
  induction bs generalizing s with
  | nil => rfl
  | cons b bs ih =>
    rw [appendAll_cons, ih (s.append b)]
    simp only [append, List.length_cons]
    congr 1
    omega

@[simp] theorem State.appendAll_offw : (s.appendAll bs).offw = s.offw := by
  rw [appendAll_frame]
@[simp] theorem State.appendAll_inseq : (s.appendAll bs).inseq = s.inseq := by
  rw [appendAll_frame]
@[simp] theorem State.appendAll_len : (s.appendAll bs).len = s.len := by
  rw [appendAll_frame]
@[simp] theorem State.appendAll_requests : (s.appendAll bs).requests = s.requests := by
  rw [appendAll_frame]
@[simp] theorem State.appendAll_phase : (s.appendAll bs).phase = s.phase := by
  rw [appendAll_frame]
@[simp] theorem State.appendAll_responses : (s.appendAll bs).responses = s.responses := by
  rw [appendAll_frame]

/-- OUTBUF after the appends: the bytes in order from the old OUTLEN, every other address as before. -/
theorem State.appendAll_read (a : Nat) :
    (s.appendAll bs).outbuf.read a =
      if s.outlen ≤ a ∧ a < s.outlen + bs.length then bs[a - s.outlen]? else s.outbuf.read a := by
  induction bs generalizing s with
  | nil => rw [appendAll_nil, if_neg (by simp)]
  | cons b bs ih =>
    rw [appendAll_cons, ih, append_outlen, append_outbuf, Memory.read_write, List.length_cons]
    rcases Nat.lt_trichotomy a s.outlen with h | h | h
    · rw [if_neg (by omega), if_neg (by omega), if_neg (by omega)]
    · rw [if_neg (by omega), if_pos h.symm, if_pos (by omega), h, Nat.sub_self]; rfl
    · have e : a - s.outlen = (a - (s.outlen + 1)) + 1 := by omega
      rw [if_neg (show ¬ s.outlen = a by omega), e, List.getElem?_cons_succ]
      by_cases h2 : a < s.outlen + 1 + bs.length
      · rw [if_pos (by omega), if_pos (by omega)]
      · rw [if_neg (by omega), if_neg (by omega)]

/-- A full buffer stays full. -/
theorem State.appendAll_full {s : State} (h : s.outbuf.map Prod.fst = List.range s.outlen)
    (bs : List Byte) :
    (s.appendAll bs).outbuf.map Prod.fst = List.range (s.appendAll bs).outlen := by
  induction bs generalizing s with
  | nil => exact h
  | cons b bs ih => exact ih (Memory.write_full h b)

end AppendAll

/-- What the encode loop leaves: the bytes appended, one response with the count. -/
theorem State.encodeFrom_eq {w : Nat} (s : State) (n : Nat) (u : BitVec w) (k : Nat) :
    s.encodeFrom n u k =
      (s.appendAll (encodeBytes n u)).respond (.enc (k + (encodeBytes n u).length)) := rfl

/-- The accumulator after the bytes `bs`, the first of them byte `k` of its value. -/
def gather {w : Nat} (acc : BitVec w) (k : Nat) : List Byte → BitVec w
  | [] => acc
  | b :: bs => gather (accumulate acc b k) (k + 1) bs

/-- While the bytes are below LEN and go on, the decode loop gathers them. -/
theorem decodeLoop_gather {w : Nat} {m : Memory} {len off : Nat} (bs : List Byte)
    (hc : ∀ b ∈ bs, contBit b = true) (todo : Nat) (acc : BitVec w) (k : Nat)
    (hl : off + k + bs.length ≤ len) (hm : ∀ j < bs.length, m.read (off + k + j) = bs[j]?) :
    decodeLoop m len off (todo + bs.length) acc k =
      decodeLoop m len off todo (gather acc k bs) (k + bs.length) := by
  induction bs generalizing acc k with
  | nil => rfl
  | cons b bs ih =>
    have h0 : m.read (off + k) = some b := by simpa using hm 0 (by simp)
    have hb : contBit b = true := hc b List.mem_cons_self
    rw [List.length_cons] at hl
    rw [List.length_cons, ← Nat.add_assoc, decodeLoop, if_neg (by omega), h0]
    simp only [hb, Bool.true_eq_false, if_false]
    rw [ih (fun c h => hc c (List.mem_cons_of_mem _ h)) _ _ (by omega) fun j hj => ?_, gather]
    · congr 1; omega
    · have := hm (j + 1) (by simpa using hj)
      rw [List.getElem?_cons_succ] at this
      rw [← this]; congr 1; omega

/-- Everything a decode loop can answer, with the bytes it has read. -/
theorem decodeLoop_cases {w : Nat} (m : Memory) (len off todo : Nat) (acc : BitVec w) (k : Nat) :
    (∃ bs b, bs.length < todo ∧ (∀ c ∈ bs, contBit c = true) ∧ contBit b = false ∧
        off + k + bs.length < len ∧ (∀ j ≤ bs.length, m.read (off + k + j) = (bs ++ [b])[j]?) ∧
        decodeLoop m len off todo acc k = .value (gather acc k (bs ++ [b])) (k + bs.length + 1)) ∨
    (∃ bs, bs.length < todo ∧ (∀ c ∈ bs, contBit c = true) ∧ len ≤ off + k + bs.length ∧
        (bs ≠ [] → off + k + bs.length ≤ len) ∧
        (∀ j < bs.length, m.read (off + k + j) = bs[j]?) ∧
        decodeLoop m len off todo acc k = .raised .truncated) ∨
    (∃ bs, bs.length = todo ∧ (∀ c ∈ bs, contBit c = true) ∧
        (bs ≠ [] → off + k + bs.length ≤ len) ∧
        (∀ j < bs.length, m.read (off + k + j) = bs[j]?) ∧
        decodeLoop m len off todo acc k = .raised .overlong) ∨
    (∃ i, off + k ≤ i ∧ i < len ∧ m.read i = none ∧
        decodeLoop m len off todo acc k = .absent i) := by
  induction todo generalizing acc k with
  | zero => exact .inr (.inr (.inl ⟨[], by simp [decodeLoop]⟩))
  | succ todo ih =>
    by_cases hl : len ≤ off + k
    · exact .inr (.inl ⟨[], by simp [decodeLoop, hl]⟩)
    rcases hr : m.read (off + k) with _ | b
    · exact .inr (.inr (.inr ⟨off + k, le_rfl, by omega, hr, by simp [decodeLoop, hl, hr]⟩))
    by_cases hb : contBit b = false
    · exact .inl ⟨[], b, by simp, by simp, hb, by simpa using by omega,
        by intro j hj; obtain rfl : j = 0 := by simpa using hj
           simpa using hr, by simp [decodeLoop, hl, hr, hb, gather]⟩
    have hb' : contBit b = true := by simpa using hb
    have hstep : decodeLoop m len off (todo + 1) acc k =
        decodeLoop m len off todo (accumulate acc b k) (k + 1) := by
      simp [decodeLoop, hl, hr, hb']
    have shift : ∀ bs : List Byte, ∀ n, (∀ j < n, m.read (off + (k + 1) + j) = bs[j]?) →
        ∀ j < n + 1, m.read (off + k + j) = (b :: bs)[j]? := by
      intro bs n h j hj
      cases j with
      | zero => simpa using hr
      | succ j =>
        rw [List.getElem?_cons_succ, ← h j (by omega)]; congr 1; omega
    rw [hstep]
    rcases ih (accumulate acc b k) (k + 1) with ⟨bs, c, h1, h2, h3, h4, h5, h6⟩ |
      ⟨bs, h1, h2, h3, h4, h5, h6⟩ | ⟨bs, h1, h2, h4, h5, h6⟩ | ⟨i, h1, h2, h3, h4⟩
    · refine .inl ⟨b :: bs, c, by simpa using h1, by simpa [hb'] using h2, h3,
        by simp only [List.length_cons]; omega, ?_, ?_⟩
      · intro j hj
        exact shift (bs ++ [c]) (bs.length + 1) (fun j hj => h5 j (by omega)) j
          (by simp only [List.length_cons] at hj; omega)
      · rw [h6, List.cons_append, gather, List.length_cons]; congr 1; omega
    · refine .inr (.inl ⟨b :: bs, by simpa using h1, by simpa [hb'] using h2,
        by simp only [List.length_cons]; omega, fun _ => ?_, ?_, h6⟩)
      · simp only [List.length_cons]
        by_cases hbs : bs = []
        · subst hbs; simp only [List.length_nil]; omega
        · have := h4 hbs; omega
      · intro j hj; exact shift bs bs.length h5 j (by simpa using hj)
    · refine .inr (.inr (.inl ⟨b :: bs, by simpa using h1, by simpa [hb'] using h2, fun _ => ?_, ?_, h6⟩))
      · simp only [List.length_cons]
        by_cases hbs : bs = []
        · subst hbs; simp only [List.length_nil]; omega
        · have := h4 hbs; omega
      · intro j hj; exact shift bs bs.length h5 j (by simpa using hj)
    · exact .inr (.inr (.inr ⟨i, by omega, h2, h3, h4⟩))

end Sys2Proof.Machine
end

