-- ==== Sys2Proof/Laws/Codec.lean ====
section
/-! SUPPORT. The laws of the zigzag transform, the byte format and the two codec loops. -/

namespace Sys2Proof.Machine

/-! The zigzag transform, bit by bit. -/

/-- The left shift, complemented when the sign bit is set (spec/40_zigzag.md R70). -/
theorem zzEnc_eq {w : Nat} (n : BitVec w) :
    zzEnc n = if n.msb then ~~~(n <<< 1) else n <<< 1 := by
  apply BitVec.eq_of_getLsbD_eq
  intro i hi
  have h : (n.sshiftRight (w - 1)).getLsbD i = n.msb := by
    rw [BitVec.getLsbD_sshiftRight]
    rcases Nat.eq_zero_or_pos i with rfl | hp
    · simp [BitVec.msb_eq_getLsbD_last, show ¬ w = 0 by omega]
    · simp [show ¬ w ≤ i by omega, show ¬ w - 1 + i < w by omega]
  rw [zzEnc, BitVec.getLsbD_xor, h]
  cases hm : n.msb <;> simp [hi]

/-- The right shift, complemented when the low bit is set (spec/40_zigzag.md R71). -/
theorem zzDec_eq {w : Nat} (u : BitVec w) :
    zzDec u = if u.getLsbD 0 then ~~~(u >>> 1) else u >>> 1 := by
  have h : u &&& 1#w = if u.getLsbD 0 then 1#w else 0#w := by
    apply BitVec.eq_of_getLsbD_eq
    intro i hi
    rcases Nat.eq_zero_or_pos i with rfl | hp
    · cases hb : u.getLsbD 0 <;> simp [hb]
    · cases hb : u.getLsbD 0 <;> simp [BitVec.getLsbD_one] <;> omega
  rw [zzDec, h]
  cases hb : u.getLsbD 0
  · simp
  · simp only [if_true]
    rw [BitVec.neg_one_eq_allOnes, BitVec.xor_allOnes]

/-! The byte format. -/

@[simp] theorem contBit_encodedByte (c : Bool) (g : Group) : contBit (encodedByte c g) = c := by
  rw [contBit, encodedByte, BitVec.getLsbD_append]
  cases c <;> rfl

@[simp] theorem group_encodedByte (c : Bool) (g : Group) : group (encodedByte c g) = g := by
  apply BitVec.eq_of_getLsbD_eq
  intro i hi
  rw [group, encodedByte, BitVec.getLsbD_extractLsb', BitVec.getLsbD_append]
  simp [hi]

@[simp] theorem contBit_nextByte {w : Nat} (u : BitVec w) : contBit (nextByte u) = more u :=
  contBit_encodedByte _ _

@[simp] theorem group_nextByte {w : Nat} (u : BitVec w) : group (nextByte u) = low7 u :=
  group_encodedByte _ _

theorem low7_toNat {w : Nat} (u : BitVec w) : (low7 u).toNat = u.toNat % 2 ^ 7 := by
  simp [low7, BitVec.extractLsb'_toNat]

theorem rest_toNat {w : Nat} (u : BitVec w) : (rest u).toNat = u.toNat / 2 ^ 7 := by
  simp [rest, BitVec.toNat_ushiftRight, Nat.shiftRight_eq_div_pow]

/-- The value goes on exactly while the magnitude left does not fit in 7 bits. -/
theorem more_iff {w : Nat} (u : BitVec w) : more u = true ↔ 2 ^ 7 ≤ u.toNat := by
  have : (rest u = 0#w) ↔ (rest u).toNat = 0 :=
    ⟨fun h => by simp [h], fun h => BitVec.eq_of_toNat_eq (by simpa using h)⟩
  rw [more, bne_iff_ne, ne_eq, this, rest_toNat]
  omega

/-! The value bus. -/

/-- A 32-bit value on the bus leaves the upper half zero (spec/10_state.md R15). -/
@[simp] theorem bus32_upper (v : BitVec 32) : (bus32 v).extractLsb' 32 32 = 0#32 := by
  apply BitVec.eq_of_getLsbD_eq
  intro i hi
  simp [bus32, BitVec.getLsbD_extractLsb']

/-! The encode loop. -/

theorem encodeBytes_ne_nil {w : Nat} (n : Nat) (u : BitVec w) : encodeBytes (n + 1) u ≠ [] := by
  rw [encodeBytes]; split <;> simp

theorem encodeBytes_length_le {w : Nat} (n : Nat) (u : BitVec w) : (encodeBytes n u).length ≤ n := by
  induction n generalizing u with
  | zero => rfl
  | succ n ih =>
    rw [encodeBytes]
    split
    · simpa using ih (rest u)
    · simp

theorem encodeBytes_length_pos {w : Nat} (n : Nat) (u : BitVec w) :
    1 ≤ (encodeBytes (n + 1) u).length :=
  List.length_pos_iff.2 (encodeBytes_ne_nil n u)

/-- A magnitude below 2^(7m) takes at most `m` bytes, however many passes are allowed. -/
theorem encodeBytes_length_le_of_lt {w : Nat} (n m : Nat) (u : BitVec w) (h : u.toNat < 2 ^ (7 * m))
    (hm : 1 ≤ m) : (encodeBytes n u).length ≤ m := by
  induction n generalizing u m with
  | zero => exact Nat.zero_le _
  | succ n ih =>
    rw [encodeBytes]
    split
    · rename_i hu
      have h7 := (more_iff u).1 hu
      have hm2 : 2 ≤ m := by
        by_contra hc
        obtain rfl : m = 1 := by omega
        omega
      have hr : (rest u).toNat < 2 ^ (7 * (m - 1)) := by
        rw [rest_toNat]
        apply Nat.div_lt_of_lt_mul
        rw [← Nat.pow_add]
        convert h using 2
        omega
      have := ih (m - 1) (rest u) hr (by omega)
      simp only [List.length_cons]; omega
    · simpa using hm

/-! The decode loop on what the encode loop emits. -/

/-- A group at its place is its value times 128^k, the bits beyond the width dropped. -/
theorem place_toNat {w : Nat} (g : Group) (k : Nat) (h : 7 * k + 7 ≤ 2 * w) :
    (place w g k).toNat = (g.toNat * 2 ^ (7 * k)) % 2 ^ w := by
  have hg : g.toNat < 2 ^ 7 := g.isLt
  have h1 : g.toNat < 2 ^ (2 * w) := lt_of_lt_of_le hg (Nat.pow_le_pow_right (by decide) (by omega))
  have h2 : g.toNat * 2 ^ (7 * k) < 2 ^ (2 * w) := by
    calc g.toNat * 2 ^ (7 * k) < 2 ^ 7 * 2 ^ (7 * k) := by gcongr
      _ = 2 ^ (7 + 7 * k) := by rw [← Nat.pow_add]
      _ ≤ 2 ^ (2 * w) := Nat.pow_le_pow_right (by decide) (by omega)
  rw [place, BitVec.toNat_setWidth, BitVec.toNat_shiftLeft, BitVec.toNat_setWidth,
    Nat.mod_eq_of_lt h1, Nat.shiftLeft_eq, Nat.mod_eq_of_lt h2]

/-- Accumulating onto groups below position 7k adds (spec/30_encoding.md R55: OR and addition agree). -/
theorem accumulate_toNat {w : Nat} (acc : BitVec w) (b : Byte) (k : Nat)
    (hk : 7 * k + 7 ≤ 2 * w) (hw : 7 * k ≤ w) (ha : acc.toNat < 2 ^ (7 * k)) :
    (accumulate acc b k).toNat = acc.toNat + ((group b).toNat * 2 ^ (7 * k)) % 2 ^ w := by
  have e : ((group b).toNat * 2 ^ (7 * k)) % 2 ^ w
      = 2 ^ (7 * k) * ((group b).toNat % 2 ^ (w - 7 * k)) := by
    conv_lhs => rw [show w = 7 * k + (w - 7 * k) by omega, Nat.pow_add, Nat.mul_comm,
      Nat.mul_mod_mul_left]
  rw [accumulate, BitVec.toNat_or, place_toNat _ _ hk, e, Nat.or_comm,
    ← Nat.two_pow_add_eq_or_of_lt ha, Nat.add_comm]

/-- The decode loop reads back what the encode loop emitted: from an accumulator that holds the groups
below position 7k, over bytes that are the encoding of `u`, it ends with `u` put at position 7k. -/
theorem decodeLoop_encodeBytes {w : Nat} {m : Memory} {len off : Nat} (n : Nat) (u acc : BitVec w)
    (k todo : Nat) (hu : u.toNat < 2 ^ (7 * n)) (hn : 1 ≤ n) (hw : 7 * k + 7 ≤ 2 * w) (hkw : 7 * k ≤ w)
    (ha : acc.toNat < 2 ^ (7 * k)) (hfit : acc.toNat + u.toNat * 2 ^ (7 * k) < 2 ^ w)
    (htodo : (encodeBytes n u).length ≤ todo)
    (hlen : off + k + (encodeBytes n u).length ≤ len)
    (hm : ∀ j < (encodeBytes n u).length, m.read (off + k + j) = (encodeBytes n u)[j]?) :
    ∃ a : BitVec w, a.toNat = acc.toNat + u.toNat * 2 ^ (7 * k) ∧
      decodeLoop m len off todo acc k = .value a (k + (encodeBytes n u).length) := by
  induction n generalizing u acc k todo with
  | zero => omega
  | succ n ih =>
    have hpos := encodeBytes_length_pos n u
    obtain ⟨todo, rfl⟩ : ∃ t, todo = t + 1 := ⟨todo - 1, by omega⟩
    have hl : ¬ len ≤ off + k := by omega
    have hP : 0 < 2 ^ (7 * k) := by positivity
    have hgfit : (low7 u).toNat * 2 ^ (7 * k) < 2 ^ w := by
      rw [low7_toNat]
      have : u.toNat % 2 ^ 7 * 2 ^ (7 * k) ≤ u.toNat * 2 ^ (7 * k) :=
        Nat.mul_le_mul_right _ (Nat.mod_le _ _)
      omega
    have hacc : (accumulate acc (nextByte u) k).toNat
        = acc.toNat + (low7 u).toNat * 2 ^ (7 * k) := by
      rw [accumulate_toNat _ _ _ hw hkw ha, group_nextByte, Nat.mod_eq_of_lt hgfit]
    by_cases hmore : more u = true
    · have hb : encodeBytes (n + 1) u = nextByte u :: encodeBytes n (rest u) := by
        rw [encodeBytes, if_pos hmore]
      have h7 := (more_iff u).1 hmore
      have hn1 : 1 ≤ n := by
        by_contra hc
        obtain rfl : n = 0 := by omega
        omega
      rw [hb] at htodo hlen hm ⊢
      simp only [List.length_cons] at htodo hlen hm ⊢
      have h0 : m.read (off + k) = some (nextByte u) := by simpa using hm 0 (by omega)
      have hsplit : u.toNat = u.toNat % 2 ^ 7 + 2 ^ 7 * (u.toNat / 2 ^ 7) :=
        (Nat.mod_add_div _ _).symm
      have hpow : 2 ^ (7 * (k + 1)) = 2 ^ 7 * 2 ^ (7 * k) := by rw [← Nat.pow_add]; congr 1; omega
      have hval : acc.toNat + u.toNat * 2 ^ (7 * k) =
          (accumulate acc (nextByte u) k).toNat + (rest u).toNat * 2 ^ (7 * (k + 1)) := by
        rw [hacc, low7_toNat, rest_toNat, hpow]
        conv_lhs => rw [hsplit]
        ring
      have hone : 2 ^ 7 * 2 ^ (7 * k) ≤ u.toNat * 2 ^ (7 * k) := Nat.mul_le_mul_right _ h7
      have hkw' : 7 * (k + 1) ≤ w := by
        have : 2 ^ (7 * (k + 1)) < 2 ^ w := by rw [hpow]; omega
        exact ((Nat.pow_lt_pow_iff_right (by decide)).1 this).le
      obtain ⟨a, ha1, ha2⟩ := ih (rest u) (accumulate acc (nextByte u) k) (k + 1) todo
        (by rw [rest_toNat]; apply Nat.div_lt_of_lt_mul; rw [← Nat.pow_add]; convert hu using 2; omega)
        hn1 (by omega) hkw'
        (by
          rw [hacc, hpow]
          have hl7 : (low7 u).toNat ≤ 2 ^ 7 - 1 := by have := (low7 u).isLt; omega
          have := Nat.mul_le_mul_right (2 ^ (7 * k)) hl7
          have e : (2 ^ 7 - 1) * 2 ^ (7 * k) = 2 ^ 7 * 2 ^ (7 * k) - 2 ^ (7 * k) := by
            rw [Nat.sub_mul, Nat.one_mul]
          omega)
        (hval ▸ hfit) (by omega) (by omega)
        (fun j hj => by
          have := hm (j + 1) (by omega)
          rw [List.getElem?_cons_succ] at this
          rw [← this]; congr 1; omega)
      refine ⟨a, by rw [ha1, hval], ?_⟩
      rw [decodeLoop, if_neg hl, h0]
      simp only [contBit_nextByte, hmore, Bool.true_eq_false, if_false]
      rw [ha2]; congr 1; omega
    · have hb : encodeBytes (n + 1) u = [nextByte u] := by rw [encodeBytes, if_neg hmore]
      rw [hb] at hm ⊢
      have h0 : m.read (off + k) = some (nextByte u) := by simpa using hm 0 (by simp)
      have hlt : u.toNat < 2 ^ 7 := by
        by_contra hc; exact hmore ((more_iff u).2 (by omega))
      refine ⟨accumulate acc (nextByte u) k, by rw [hacc, low7_toNat, Nat.mod_eq_of_lt hlt], ?_⟩
      have hf : more u = false := by simpa using hmore
      rw [decodeLoop, if_neg hl, h0]
      simp [hf]

end Sys2Proof.Machine
end

