-- ==== Sys2Proof/Laws/PerInstr.lean ====
section
/-! SUPPORT. One statement per constructor of Instr: the op code the encoder drives is the one the field
table of spec/30_encoding.md R50 gives, `{unit, dir, w64}`. -/

namespace Sys2Proof.Laws.OpFields

/-- `unit`: 1 for the zigzag transform alone (R50). -/
def unitBit : Instr → Bool
  | .venc32 _ => false
  | .venc64 _ => false
  | .vdec32 _ => false
  | .vdec64 _ => false
  | .zzenc32 _ => true
  | .zzenc64 _ => true
  | .zzdec32 _ => true
  | .zzdec64 _ => true

/-- `dir`: 1 for the decode direction (R50). -/
def dirBit : Instr → Bool
  | .venc32 _ => false
  | .venc64 _ => false
  | .vdec32 _ => true
  | .vdec64 _ => true
  | .zzenc32 _ => false
  | .zzenc64 _ => false
  | .zzdec32 _ => true
  | .zzdec64 _ => true

/-- `w64`: 1 for width 64 (R50). -/
def w64Bit : Instr → Bool
  | .venc32 _ => false
  | .venc64 _ => true
  | .vdec32 _ => false
  | .vdec64 _ => true
  | .zzenc32 _ => false
  | .zzenc64 _ => true
  | .zzdec32 _ => false
  | .zzdec64 _ => true

/-- The encoded op code has the three fields of R50. -/
def Statement (i : Instr) : Prop :=
  (encode i).op.getLsbD 2 = unitBit i ∧ (encode i).op.getLsbD 1 = dirBit i ∧
    (encode i).op.getLsbD 0 = w64Bit i

theorem venc32 (v : BitVec 32) : Statement (.venc32 v) := by
  simp [Statement, encode, unitBit, dirBit, w64Bit]
theorem venc64 (v : BitVec 64) : Statement (.venc64 v) := by
  simp [Statement, encode, unitBit, dirBit, w64Bit]
theorem vdec32 (off : Nat) : Statement (.vdec32 off) := by
  simp [Statement, encode, unitBit, dirBit, w64Bit]
theorem vdec64 (off : Nat) : Statement (.vdec64 off) := by
  simp [Statement, encode, unitBit, dirBit, w64Bit]
theorem zzenc32 (n : BitVec 32) : Statement (.zzenc32 n) := by
  simp [Statement, encode, unitBit, dirBit, w64Bit]
theorem zzenc64 (n : BitVec 64) : Statement (.zzenc64 n) := by
  simp [Statement, encode, unitBit, dirBit, w64Bit]
theorem zzdec32 (u : BitVec 32) : Statement (.zzdec32 u) := by
  simp [Statement, encode, unitBit, dirBit, w64Bit]
theorem zzdec64 (u : BitVec 64) : Statement (.zzdec64 u) := by
  simp [Statement, encode, unitBit, dirBit, w64Bit]

end Sys2Proof.Laws.OpFields
end

