-- ==== Sys2Proof/Laws/Step.lean ====
section
/-! SUPPORT. What a command, a step and a beat can do, said once. -/

namespace Sys2Proof.Machine

/-- How a 32-bit decode can end, told from the loop's own end. -/
theorem endDecode32_next {s t : State} {off : Nat} {e : DecodeEnd 32}
    (h : s.endDecode32 off e = .next t) :
    (∃ a k, e = .value a k ∧ t = s.respond (.dec32 (zzDec a) (off + k) k)) ∨
    (∃ f, e = .raised f ∧ t = s.raise f off) := by
  cases e with
  | value a k => exact .inl ⟨a, k, rfl, by simpa [State.endDecode32] using h.symm⟩
  | raised f => exact .inr ⟨f, rfl, by simpa [State.endDecode32] using h.symm⟩
  | absent i => simp [State.endDecode32] at h

/-- How a 64-bit decode can end, told from the loop's own end. -/
theorem endDecode64_next {s t : State} {off : Nat} {e : DecodeEnd 64}
    (h : s.endDecode64 off e = .next t) :
    (∃ a k, e = .value a k ∧ t = s.respond (.dec64 (zzDec a) (off + k) k)) ∨
    (∃ f, e = .raised f ∧ t = s.raise f off) := by
  cases e with
  | value a k => exact .inl ⟨a, k, rfl, by simpa [State.endDecode64] using h.symm⟩
  | raised f => exact .inr ⟨f, rfl, by simpa [State.endDecode64] using h.symm⟩
  | absent i => simp [State.endDecode64] at h

/-- A decode loop that ends with a value has consumed at least one more byte and no more than allowed,
all below LEN. -/
theorem decodeLoop_value_bounds {w : Nat} {m : Memory} {len off todo : Nat} {acc : BitVec w} {k : Nat}
    {a : BitVec w} {j : Nat} (h : decodeLoop m len off todo acc k = .value a j) :
    k + 1 ≤ j ∧ j ≤ k + todo ∧ off + j ≤ len := by
  rcases decodeLoop_cases m len off todo acc k with ⟨bs, b, h1, -, -, h4, -, h6⟩ |
    ⟨bs, -, -, -, -, -, h6⟩ | ⟨bs, -, -, -, -, h6⟩ | ⟨i, -, -, -, h6⟩
  · rw [h] at h6
    injection h6 with h6 h7
    omega
  all_goals rw [h] at h6; cases h6

/-- The one thing any command can do when it answers a next state: append its bytes, give one response, and
that response is one R14 allows it. -/
theorem exec_next {i : Instr} {s t : State} (h : exec i s = .next t) :
    ∃ r, t = (s.appendAll (storedBytes i)).respond r ∧ r.answers i := by
  cases i with
  | venc32 v =>
    injection h with h
    exact ⟨_, h.symm, by
      rw [Nat.zero_add]; exact ⟨encodeBytes_length_pos 4 _, encodeBytes_length_le _ _⟩⟩
  | venc64 v =>
    injection h with h
    exact ⟨_, h.symm, by
      rw [Nat.zero_add]; exact ⟨encodeBytes_length_pos 9 _, encodeBytes_length_le _ _⟩⟩
  | vdec32 off =>
    rcases endDecode32_next h with ⟨a, k, he, rfl⟩ | ⟨f, he, rfl⟩
    · have := decodeLoop_value_bounds he
      exact ⟨_, rfl, by omega, by simpa using this.2.1, rfl⟩
    · exact ⟨_, rfl, rfl⟩
  | vdec64 off =>
    rcases endDecode64_next h with ⟨a, k, he, rfl⟩ | ⟨f, he, rfl⟩
    · have := decodeLoop_value_bounds he
      exact ⟨_, rfl, by omega, by simpa using this.2.1, rfl⟩
    · exact ⟨_, rfl, rfl⟩
  | zzenc32 n => injection h with h; exact ⟨_, h.symm, rfl⟩
  | zzenc64 n => injection h with h; exact ⟨_, h.symm, rfl⟩
  | zzdec32 u => injection h with h; exact ⟨_, h.symm, rfl⟩
  | zzdec64 u => injection h with h; exact ⟨_, h.symm, rfl⟩

theorem endDecode32_not_refused (s : State) (off : Nat) (e : DecodeEnd 32) (r : Refusal) :
    s.endDecode32 off e ≠ .refused r := by
  cases e <;> simp [State.endDecode32]

theorem endDecode64_not_refused (s : State) (off : Nat) (e : DecodeEnd 64) (r : Refusal) :
    s.endDecode64 off e ≠ .refused r := by
  cases e <;> simp [State.endDecode64]

/-- No command is refused. -/
theorem exec_not_refused (i : Instr) (s : State) (r : Refusal) : exec i s ≠ .refused r := by
  cases i with
  | vdec32 off => exact endDecode32_not_refused _ _ _ _
  | vdec64 off => exact endDecode64_not_refused _ _ _ _
  | _ => exact fun h => by cases h

/-- An idle core with no command offered stays as it is. -/
theorem step_idle_nil {s : State} (hp : s.phase = .idle) (hr : s.requests = []) :
    step s = .next s := by
  simp [step, hp, State.accepted, hr]

/-- A step of a busy core carries its operation to its end. -/
theorem step_busy {s : State} (hp : s.phase ≠ .idle) : step s = s.finish := by
  unfold step
  split <;> first | rfl | contradiction

end Sys2Proof.Machine
end

