-- ==== Sys2Proof/Tests/Slice0.lean ====
section
/-! SUPPORT. The model's own tests: the well-formedness smoke test, decoding by words written out from
spec/30_encoding.md R51, the spec's own vectors (spec/95_test_vectors.md), and a witness for the premises of
every statement that has premises. Expected results come from the spec's tables. -/

namespace Sys2Proof.Tests

open Sys2Proof.Machine

/-! The well-formedness check, and each thing it and the decoder refuse. -/

theorem test_wf_smoke :
    Instr.wf 8 (.vdec32 255) = true ∧ Instr.wf 8 (.vdec32 256) = false ∧
    Instr.wf 8 (.vdec64 255) = true ∧ Instr.wf 8 (.vdec64 256) = false ∧
    Request.wf 8 ⟨0#3, 0#64, 255⟩ = true ∧ Request.wf 8 ⟨0#3, 0#64, 256⟩ = false ∧
    Instr.wf 1 (.venc64 0xFFFFFFFFFFFFFFFF#64) = true := by decide

theorem test_decode_rejects :
    decodeWord 2 0 = .error .noOpCode ∧ decodeWord 3 8 = .error .strayBits ∧
    decodeTableWord 2 0 = none ∧ decodeTableWord 3 8 = none := ⟨rfl, rfl, rfl, rfl⟩

/-! Each op code written bit by bit, unit dir w64, from the table of R51; the operand of the first word is
its `req_val` from bit 3 up, of the decodes their `req_off` from bit 67 up (log 8). -/

theorem test_decode_venc32 : decodeTableWord 67 (0b1100101100 * 2 ^ 3 + 0b000) =
    some (.venc32 0b1100101100#32) := by decide
theorem test_decode_venc64 : decodeTableWord 67 (0x8000000000000000 * 2 ^ 3 + 0b001) =
    some (.venc64 0x8000000000000000#64) := by decide
theorem test_decode_vdec32 : decodeTableWord 75 (0x81 * 2 ^ 67 + 0b010) = some (.vdec32 0x81) := by decide
theorem test_decode_vdec64 : decodeTableWord 75 (0x81 * 2 ^ 67 + 0b011) = some (.vdec64 0x81) := by decide
/-- The operand bits above 31 are ignored at width 32 (R15; spec/95_test_vectors.md V-Z). -/
theorem test_decode_zzenc32 : decodeTableWord 67 (0xDEADBEEF80000000 * 2 ^ 3 + 0b100) =
    some (.zzenc32 0x80000000#32) := by decide
theorem test_decode_zzenc64 : decodeTableWord 67 (0x80000000 * 2 ^ 3 + 0b101) =
    some (.zzenc64 0x80000000#64) := by decide
theorem test_decode_zzdec32 : decodeTableWord 67 (0xFFFFFFFF * 2 ^ 3 + 0b110) =
    some (.zzdec32 0xFFFFFFFF#32) := by decide
theorem test_decode_zzdec64 : decodeTableWord 67 (0xFFFFFFFF * 2 ^ 3 + 0b111) =
    some (.zzdec64 0xFFFFFFFF#64) := by decide

/-! A small bench: OUTBUF holds two foreign bytes, INSEQ the bytes given, all of them available. -/

/-- An idle core whose host has connected `bs` to the read port. -/
def bench (bs : List Byte) : State where
  offw      := 8
  outbuf    := [(0, 0xAA#8), (1, 0xBB#8)]
  outlen    := 2
  inseq     := Memory.ofBytes 0 bs
  len       := bs.length
  requests  := []
  phase     := .idle
  responses := []

/-- The response a command gives on the bench. -/
def answer (i : Instr) (s : State) : Option Response :=
  match exec i s with
  | .next t => t.responses.getLast?
  | .fault _ => none
  | .refused _ => none

/-- OUTBUF after a command. -/
def outAfter (i : Instr) (s : State) : Memory :=
  match exec i s with
  | .next t => t.outbuf
  | .fault _ => []
  | .refused _ => []

/-- `n` bytes with the continuation bit set and group 0, then `b`. -/
def conts (n : Nat) (b : Byte) : List Byte :=
  List.replicate n 0x80#8 ++ [b]

/-! The spec's vectors: V-Z. -/

theorem test_zzenc32 : answer (.zzenc32 0x80000000#32) (bench []) = some (.zz32 0xFFFFFFFF#32) ∧
    answer (.zzenc32 0xAAAAAAAA#32) (bench []) = some (.zz32 0xAAAAAAAB#32) := by decide
theorem test_zzenc64 :
    answer (.zzenc64 0x80000000#64) (bench []) = some (.zz64 0x0000000100000000#64) ∧
    answer (.zzenc64 0xC000000000000000#64) (bench []) = some (.zz64 0x7FFFFFFFFFFFFFFF#64) := by decide
theorem test_zzdec32 : answer (.zzdec32 0x80000001#32) (bench []) = some (.zz32 0xBFFFFFFF#32) ∧
    (Response.zz32 0x80000000#32).val = some 0x0000000080000000#64 := by decide
theorem test_zzdec64 :
    answer (.zzdec64 0xFFFFFFFF#64) (bench []) = some (.zz64 0xFFFFFFFF80000000#64) ∧
    answer (.zzdec64 0x7FFFFFFFFFFFFFFF#64) (bench []) = some (.zz64 0xC000000000000000#64) := by decide

/-! V-E32 and V-E64: the bytes follow what OUTBUF held. -/

theorem test_venc32_middle_zero_group : answer (.venc32 8192#32) (bench []) = some (.enc 3) ∧
    outAfter (.venc32 8192#32) (bench []) =
      [(0, 0xAA#8), (1, 0xBB#8), (2, 0x80#8), (3, 0x80#8), (4, 0x01#8)] := by decide
theorem test_venc32_min : outAfter (.venc32 0x80000000#32) (bench []) =
    [(0, 0xAA#8), (1, 0xBB#8), (2, 0xFF#8), (3, 0xFF#8), (4, 0xFF#8), (5, 0xFF#8), (6, 0x0F#8)] := by
  decide
theorem test_venc64_beyond_32_bits : answer (.venc64 0xFFFFFFFF7FFFFFFF#64) (bench []) = some (.enc 5) ∧
    outAfter (.venc64 0xFFFFFFFF7FFFFFFF#64) (bench []) =
      [(0, 0xAA#8), (1, 0xBB#8), (2, 0x81#8), (3, 0x80#8), (4, 0x80#8), (5, 0x80#8), (6, 0x10#8)] := by
  decide
theorem test_venc64_max : answer (.venc64 0x7FFFFFFFFFFFFFFF#64) (bench []) = some (.enc 10) ∧
    ((outAfter (.venc64 0x7FFFFFFFFFFFFFFF#64) (bench [])).map Prod.snd).drop 2 =
      [0xFE#8, 0xFF#8, 0xFF#8, 0xFF#8, 0xFF#8, 0xFF#8, 0xFF#8, 0xFF#8, 0xFF#8, 0x01#8] := by decide

/-! V-D32 and V-D64, V-F. -/

theorem test_vdec32_values :
    answer (.vdec32 2) (bench [0x7E#8, 0x7F#8, 0x80#8, 0x01#8]) = some (.dec32 64#32 4 2) ∧
    answer (.vdec32 0) (bench (conts 4 0x1F#8)) = some (.dec32 0x78000000#32 5 5) := by decide
theorem test_vdec32_faults :
    answer (.vdec32 0) (bench (conts 4 0x80#8)) = some (.fault .overlong 0) ∧
    answer (.vdec32 0) (bench (conts 3 0x80#8)) = some (.fault .truncated 0) := by decide
theorem test_vdec64_values :
    answer (.vdec64 1) (bench [0x00#8, 0x80#8, 0x80#8, 0x80#8, 0x80#8, 0x80#8, 0x80#8, 0x01#8, 0xFF#8]) =
      some (.dec64 0x0000020000000000#64 8 7) ∧
    answer (.vdec64 0) (bench (conts 9 0x03#8)) = some (.dec64 0x4000000000000000#64 10 10) := by decide
theorem test_vdec64_faults :
    answer (.vdec64 0) (bench (conts 9 0x80#8)) = some (.fault .overlong 0) ∧
    answer (.vdec64 3) (bench (conts 8 0x80#8)) = some (.fault .truncated 3) := by decide

/-- A bound below the bytes stored: `0x80 0x01` with LEN = 1 is truncated (V-F). -/
theorem test_bound_is_len : answer (.vdec32 0) { bench [0x80#8, 0x01#8] with len := 1 } =
    some (.fault .truncated 0) := by decide

/-! The invariant on the bench. -/

/-- A bench state is one the hardware can be in, in every legal phase. -/
theorem bench_inv (bs : List Byte) (hl : bs.length ≤ 255) (rs : List Request)
    (hr : ∀ r ∈ rs, r.wf 8 = true) (p : Phase) (hp : p.wf 8 bs.length) :
    (((bench bs).withRequests rs).withPhase p).Inv where
  offw_pos := by show 1 ≤ 8; decide
  outbuf_full := rfl
  inseq_wf := Memory.ofBytes_wf 0 bs
  inseq_full := by
    intro a ha
    show ((Memory.ofBytes 0 bs).read a).isSome = true
    have h : a < bs.length := ha
    rw [Memory.read_ofBytes]
    simp [h]
  len_fits := hl
  requests_wf := hr
  phase_wf := hp
  responses_wf := by intro r h; cases h

theorem bench_idle_inv (bs : List Byte) (hl : bs.length ≤ 255) : (bench bs).Inv :=
  bench_inv bs hl [] (by simp) .idle trivial

/-! Witnesses: the premises of each statement hold together somewhere. -/

theorem witness_UnreadRequestFieldsChangeNothing :
    (∃ r r' : Request, r ≠ r' ∧ r.op = r'.op ∧ r.op = 0b100#3 ∧
      ∀ j < 32, r.val.getLsbD j = r'.val.getLsbD j) ∧
    (∃ r r' : Request, r ≠ r' ∧ r.op = r'.op ∧ r.op = 0b101#3 ∧ r.val = r'.val) ∧
    (∃ r r' : Request, r ≠ r' ∧ r.op = r'.op ∧ r.op = 0b010#3 ∧ r.off = r'.off) :=
  ⟨⟨⟨0b100#3, 0xDEADBEEF80000000#64, 5⟩, ⟨0b100#3, 0x80000000#64, 9⟩, by decide⟩,
   ⟨⟨0b101#3, 7#64, 5⟩, ⟨0b101#3, 7#64, 9⟩, by decide⟩,
   ⟨⟨0b010#3, 7#64, 5⟩, ⟨0b010#3, 8#64, 5⟩, by decide⟩⟩

theorem witness_StepRunsTheCommandOffered :
    (∃ s : State, ∃ r, s.phase = .idle ∧ s.requests = [r]) ∧
    (∃ s : State, s.phase = .idle ∧ s.requests = []) :=
  ⟨⟨(bench []).offering (encode (.venc32 0#32)), _, rfl, rfl⟩, ⟨bench [], rfl, rfl⟩⟩

/-- VENC32 of the minimum after four of its five bytes. -/
def enc32Late : Phase := .encode32 (encode (.venc32 0x80000000#32)) 0xF#32 4
/-- VENC64 of the minimum after nine of its ten bytes. -/
def enc64Late : Phase := .encode64 (encode (.venc64 0x8000000000000000#64)) 1#64 9
/-- VDEC32 at the last byte it may read. -/
def dec32Late : Phase := .decode32 (encode (.vdec32 0)) 0#32 4
/-- VDEC64 at the last byte it may read. -/
def dec64Late : Phase := .decode64 (encode (.vdec64 0)) 0#64 9
/-- A fault response not yet taken. -/
def faultOffered : Phase := .respond (encode (.vdec32 3)) (.fault .truncated 3)

/-- A state in phase `p`, over ten continuation bytes. -/
def busy (p : Phase) : State := ((bench (conts 9 0x80#8)).withRequests []).withPhase p

theorem witness_busy_inv : (busy enc32Late).Inv ∧ (busy enc64Late).Inv ∧ (busy dec32Late).Inv ∧
    (busy dec64Late).Inv ∧ (busy faultOffered).Inv := by
  refine ⟨bench_inv _ (by decide) _ (by simp) _ ?_, bench_inv _ (by decide) _ (by simp) _ ?_,
    bench_inv _ (by decide) _ (by simp) _ ?_, bench_inv _ (by decide) _ (by simp) _ ?_,
    bench_inv _ (by decide) _ (by simp) _ ⟨rfl, rfl, by show 3 < 256; decide⟩⟩
  · exact ⟨rfl, rfl, by decide, by decide, by decide⟩
  · exact ⟨rfl, rfl, by decide, by decide, by decide⟩
  · exact ⟨rfl, rfl, by decide, by decide, by decide⟩
  · exact ⟨rfl, rfl, by decide, by decide, by decide⟩

/-- Every kind of busy phase, each at the last byte it allows; for the decodes the bytes read before. -/
theorem witness_BusyStepEndsItsOperationFirst :
    (busy faultOffered).Inv ∧ (busy enc32Late).Inv ∧ (busy enc64Late).Inv ∧
    ((busy dec32Late).Inv ∧ (∀ i < 4, (busy dec32Late).inseq.read (0 + i) = some 0x80#8 ∧
        (0x80#8).getLsbD 7 = true) ∧
      0#32 = BitVec.ofNat 32 (∑ i ∈ Finset.range 4, (0x80#8).toNat % 128 * 2 ^ (7 * i))) ∧
    ((busy dec64Late).Inv ∧ (∀ i < 9, (busy dec64Late).inseq.read (0 + i) = some 0x80#8 ∧
        (0x80#8).getLsbD 7 = true) ∧
      0#64 = BitVec.ofNat 64 (∑ i ∈ Finset.range 9, (0x80#8).toNat % 128 * 2 ^ (7 * i))) :=
  ⟨witness_busy_inv.2.2.2.2, witness_busy_inv.1, witness_busy_inv.2.1,
   ⟨witness_busy_inv.2.2.1, by decide, by decide⟩, ⟨witness_busy_inv.2.2.2.1, by decide, by decide⟩⟩

theorem witness_StepKeepsTheInvariant : ∃ s t : State, s.Inv ∧ step s = .next t :=
  ⟨busy dec32Late, _, witness_busy_inv.2.2.1, rfl⟩

theorem witness_BeatKeepsTheInvariant :
    (∃ s t : State, s.Inv ∧ (HostEvent.readAnswer 0xFF#8).wf s.offw ∧
      beat (.readAnswer 0xFF#8) s = .next t) ∧
    (∃ s t : State, s.Inv ∧ (HostEvent.reset).wf s.offw ∧ beat .reset s = .next t) ∧
    (∃ s t : State, s.Inv ∧ (HostEvent.driveInput [(0, 1#8)] 1).wf s.offw ∧
      beat (.driveInput [(0, 1#8)] 1) s = .next t) :=
  ⟨⟨busy dec32Late, _, witness_busy_inv.2.2.1, trivial, rfl⟩,
   ⟨busy enc64Late, _, witness_busy_inv.2.1, trivial, rfl⟩,
   ⟨bench [], _, bench_idle_inv [] (by decide), ⟨by decide, by decide, by decide⟩, rfl⟩⟩

/-- A host with two commands to offer, the second a decode at the end of the input. -/
def twoCommands : State :=
  (bench [0x80#8]).withRequests [encode (.venc64 0x8000000000000000#64), encode (.vdec32 1)]

theorem twoCommands_inv : twoCommands.Inv :=
  bench_inv [0x80#8] (by decide)
    [encode (.venc64 0x8000000000000000#64), encode (.vdec32 1)] (by decide) .idle trivial

theorem witness_AtomicStepIsReachedByFairBeats :
    ((busy enc64Late).Inv ∧ (busy enc64Late).phase ≠ .idle) ∧
    (twoCommands.Inv ∧ twoCommands.requests ≠ []) :=
  ⟨⟨witness_busy_inv.2.1, by decide⟩, ⟨twoCommands_inv, by decide⟩⟩

theorem witness_RunPerformsEveryCommandInOrder :
    twoCommands.Inv ∧ twoCommands.phase = .idle ∧ twoCommands.requests.length = 2 :=
  ⟨twoCommands_inv, rfl, rfl⟩

theorem witness_ZigzagReadsAsIntegers :
    0 ≤ (0x7FFFFFFF#32).toInt ∧ (0x80000000#32).toInt < 0 ∧
    0 ≤ (0x7FFFFFFFFFFFFFFF#64).toInt ∧ (0x8000000000000000#64).toInt < 0 ∧
    (0xFFFFFFFE#32).toNat % 2 = 0 ∧ (0xFFFFFFFF#32).toNat % 2 = 1 ∧
    (0xFFFFFFFFFFFFFFFE#64).toNat % 2 = 0 ∧ (0xFFFFFFFFFFFFFFFF#64).toNat % 2 = 1 := by decide

theorem witness_EncodedLengthFollowsTheSignedRange :
    (∃ t, exec (.venc32 63#32) (bench []) = .next t ∧ t.outlen = (bench []).outlen + 1) ∧
    (∃ t, exec (.venc32 0x80000000#32) (bench []) = .next t ∧ t.outlen = (bench []).outlen + 5) ∧
    (∃ t, exec (.venc64 64#64) (bench []) = .next t ∧ t.outlen = (bench []).outlen + 2) ∧
    (∃ t, exec (.venc64 0x7FFFFFFFFFFFFFFF#64) (bench []) = .next t ∧
      t.outlen = (bench []).outlen + 10) :=
  ⟨⟨_, rfl, rfl⟩, ⟨_, rfl, rfl⟩, ⟨_, rfl, rfl⟩, ⟨_, rfl, rfl⟩⟩

/-- The bench after one response more. -/
def answered (bs : List Byte) (rsp : Response) : State := { bench bs with responses := [rsp] }

/-- Non-canonical zero, at both widths: premises of `NoAcceptedEncodingIsShorter`. -/
theorem witness_NoAcceptedEncodingIsShorter :
    (exec (.vdec32 0) (bench (conts 4 0#8)) = .next (answered (conts 4 0#8) (.dec32 0#32 5 5)) ∧
      ∃ t', exec (.venc32 0#32) (bench []) = .next t') ∧
    (exec (.vdec64 0) (bench (conts 9 0#8)) = .next (answered (conts 9 0#8) (.dec64 0#64 10 10)) ∧
      ∃ t', exec (.venc64 0#64) (bench []) = .next t') :=
  ⟨⟨rfl, _, rfl⟩, ⟨rfl, _, rfl⟩⟩

/-- One byte, and the most bytes, at both widths. -/
theorem witness_CanonicalBytesReencodeToThemselves :
    (exec (.vdec32 0) (bench [0x00#8]) = .next (answered [0x00#8] (.dec32 0#32 1 1)) ∧
      (bench [0x00#8]).inseq.read (0 + 1 - 1) = some 0x00#8 ∧
      ∃ t', exec (.venc32 0#32) (bench []) = .next t') ∧
    (exec (.vdec32 0) (bench (conts 4 0x0F#8)) =
        .next (answered (conts 4 0x0F#8) (.dec32 0x78000000#32 5 5)) ∧
      (bench (conts 4 0x0F#8)).inseq.read (0 + 5 - 1) = some 0x0F#8 ∧ 0x0F#8 ≠ 0#8 ∧
      (0x0F#8).toNat < 16 ∧ ∃ t', exec (.venc32 0x78000000#32) (bench []) = .next t') ∧
    (exec (.vdec64 0) (bench (conts 9 0x01#8)) =
        .next (answered (conts 9 0x01#8) (.dec64 0x4000000000000000#64 10 10)) ∧
      (bench (conts 9 0x01#8)).inseq.read (0 + 10 - 1) = some 0x01#8 ∧ 0x01#8 ≠ 0#8 ∧
      (0x01#8).toNat < 2 ∧ ∃ t', exec (.venc64 0x4000000000000000#64) (bench []) = .next t') :=
  ⟨⟨rfl, rfl, _, rfl⟩, ⟨rfl, rfl, by decide, by decide, _, rfl⟩,
   ⟨rfl, rfl, by decide, by decide, _, rfl⟩⟩

/-! The clauses of the two decode rules. The value clause at L = 1 and at L = N, the truncated clause at k = 0
and at k = N - 1, the overlong clause. -/

/-- The bytes of `bs`, as the function the statements speak of. -/
def byteAt (bs : List Byte) (i : Nat) : Byte := bs.getD i 0#8

/-- The premises of the value clause, for length `L` at offset `off`. -/
def ValuePremises (s : State) (off L : Nat) (b : Nat → Byte) : Prop :=
  off + L ≤ s.len ∧ (∀ i < L, s.inseq.read (off + i) = some (b i)) ∧
    (∀ i < L, i + 1 < L → (b i).getLsbD 7 = true) ∧ (b (L - 1)).getLsbD 7 = false

/-- The premises of the truncated clause, with `k` bytes before the end. -/
def TruncatedPremises (s : State) (off k : Nat) (b : Nat → Byte) : Prop :=
  s.len ≤ off + k ∧
    ∀ i < k, off + i < s.len ∧ s.inseq.read (off + i) = some (b i) ∧ (b i).getLsbD 7 = true

/-- The premises of the overlong clause. -/
def OverlongPremises (s : State) (off n : Nat) (b : Nat → Byte) : Prop :=
  off + n ≤ s.len ∧ ∀ i < n, s.inseq.read (off + i) = some (b i) ∧ (b i).getLsbD 7 = true

theorem witness_Vdec32ReadsOneValue :
    ValuePremises (bench [0x7F#8]) 0 1 (byteAt [0x7F#8]) ∧
    ValuePremises (bench (conts 4 0x7F#8)) 0 5 (byteAt (conts 4 0x7F#8)) ∧
    TruncatedPremises (bench [0x80#8]) 1 0 (byteAt []) ∧
    TruncatedPremises (bench (conts 3 0x80#8)) 0 4 (byteAt (conts 3 0x80#8)) ∧
    OverlongPremises (bench (conts 4 0x80#8)) 0 5 (byteAt (conts 4 0x80#8)) := by
  unfold ValuePremises TruncatedPremises OverlongPremises
  decide

theorem witness_Vdec64ReadsOneValue :
    ValuePremises (bench [0x7F#8]) 0 1 (byteAt [0x7F#8]) ∧
    ValuePremises (bench (conts 9 0x01#8)) 0 10 (byteAt (conts 9 0x01#8)) ∧
    TruncatedPremises (bench [0x80#8]) 1 0 (byteAt []) ∧
    TruncatedPremises (bench (conts 8 0x80#8)) 0 9 (byteAt (conts 8 0x80#8)) ∧
    OverlongPremises (bench (conts 9 0x80#8)) 0 10 (byteAt (conts 9 0x80#8)) := by
  unfold ValuePremises TruncatedPremises OverlongPremises
  decide

theorem witness_EveryDecodeAnswers : (bench (conts 9 0x80#8)).Inv := bench_idle_inv _ (by decide)

/-- No byte of a run of continuation bytes has a clear continuation bit. -/
theorem no_stop_byte (n m : Nat) : ¬ ∃ i b, i < m ∧
    (bench (conts n 0x80#8)).inseq.read (0 + i) = some b ∧ b.getLsbD 7 = false := by
  rintro ⟨i, b, hi, hr, hb⟩
  have hr : (Memory.ofBytes 0 (conts n 0x80#8)).read (0 + i) = some b := hr
  rw [Memory.read_ofBytes, if_pos (by omega)] at hr
  have hc : b ∈ conts n 0x80#8 := List.mem_of_getElem? hr
  have : b = 0x80#8 := by
    simp only [conts, List.mem_append, List.mem_replicate, List.mem_singleton] at hc
    rcases hc with ⟨-, h⟩ | h <;> exact h
  subst this
  exact absurd hb (by decide)

/-- The three cases of R105, at their edges: the stop byte is the fifth of five; five bytes and no stop
byte; four bytes and no stop byte; and the same at width 64. -/
theorem witness_FaultFollowsTheOrderOfTheChecks :
    ((bench (conts 4 0x01#8)).Inv ∧ (∃ t rsp, exec (.vdec32 0) (bench (conts 4 0x01#8)) = .next t ∧
        t.responses = (bench (conts 4 0x01#8)).responses ++ [rsp]) ∧
      ∃ i b, i < min 5 ((bench (conts 4 0x01#8)).len - 0) ∧
        (bench (conts 4 0x01#8)).inseq.read (0 + i) = some b ∧ b.getLsbD 7 = false) ∧
    ((bench (conts 4 0x80#8)).Inv ∧ (∃ t rsp, exec (.vdec32 0) (bench (conts 4 0x80#8)) = .next t ∧
        t.responses = (bench (conts 4 0x80#8)).responses ++ [rsp]) ∧
      (¬ ∃ i b, i < min 5 ((bench (conts 4 0x80#8)).len - 0) ∧
        (bench (conts 4 0x80#8)).inseq.read (0 + i) = some b ∧ b.getLsbD 7 = false) ∧
      5 ≤ (bench (conts 4 0x80#8)).len - 0) ∧
    ((bench (conts 8 0x80#8)).Inv ∧ (∃ t rsp, exec (.vdec64 0) (bench (conts 8 0x80#8)) = .next t ∧
        t.responses = (bench (conts 8 0x80#8)).responses ++ [rsp]) ∧
      (¬ ∃ i b, i < min 10 ((bench (conts 8 0x80#8)).len - 0) ∧
        (bench (conts 8 0x80#8)).inseq.read (0 + i) = some b ∧ b.getLsbD 7 = false) ∧
      (bench (conts 8 0x80#8)).len - 0 < 10) :=
  ⟨⟨bench_idle_inv _ (by decide), ⟨_, _, rfl, rfl⟩, 4, 0x01#8, by decide, rfl, rfl⟩,
   ⟨bench_idle_inv _ (by decide), ⟨_, _, rfl, rfl⟩, no_stop_byte 4 _, by decide⟩,
   ⟨bench_idle_inv _ (by decide), ⟨_, _, rfl, rfl⟩, no_stop_byte 8 _, by decide⟩⟩

theorem witness_DecodeDependsOnConsumedBytesOnly :
    (exec (.vdec32 0) (bench [0xD8#8, 0x04#8, 0x99#8]) =
        .next (answered [0xD8#8, 0x04#8, 0x99#8] (.dec32 300#32 2 2)) ∧
      (∀ i < 2, Memory.read [(0, 0xD8#8), (1, 0x04#8)] (0 + i) =
        (bench [0xD8#8, 0x04#8, 0x99#8]).inseq.read (0 + i)) ∧ 0 + 2 ≤ 2) ∧
    (exec (.vdec64 0) (bench [0xD8#8, 0x04#8, 0x99#8]) =
        .next (answered [0xD8#8, 0x04#8, 0x99#8] (.dec64 300#64 2 2))) :=
  ⟨⟨rfl, by decide, by decide⟩, rfl⟩

/-- The first byte absent, and the last byte each width may need. -/
theorem witness_MissingInputByteStopsTheModel :
    (0 + 0 < ({ bench [] with len := 1 } : State).len ∧
      ({ bench [] with len := 1 } : State).inseq.read (0 + 0) = none) ∧
    (0 + 4 < ({ bench (conts 3 0x80#8) with len := 5 } : State).len ∧
      (∀ i < 4, ({ bench (conts 3 0x80#8) with len := 5 } : State).inseq.read (0 + i) = some 0x80#8 ∧
        (0x80#8).getLsbD 7 = true) ∧
      ({ bench (conts 3 0x80#8) with len := 5 } : State).inseq.read (0 + 4) = none) ∧
    (0 + 9 < ({ bench (conts 8 0x80#8) with len := 10 } : State).len ∧
      (∀ i < 9, ({ bench (conts 8 0x80#8) with len := 10 } : State).inseq.read (0 + i) = some 0x80#8 ∧
        (0x80#8).getLsbD 7 = true) ∧
      ({ bench (conts 8 0x80#8) with len := 10 } : State).inseq.read (0 + 9) = none) := by decide

theorem witness_NonStoringCommandsOnlyRespond :
    (∀ v, Instr.vdec64 0 ≠ .venc32 v) ∧ (∀ v, Instr.vdec64 0 ≠ .venc64 v) ∧
    exec (.vdec64 0) (bench [0x01#8]) = .next (answered [0x01#8] (.dec64 0xFFFFFFFFFFFFFFFF#64 1 1)) :=
  ⟨by simp, by simp, rfl⟩

theorem witness_CommandsDependOnNoHistory :
    ∃ s s' t t' : State, s ≠ s' ∧ s.inseq = s'.inseq ∧ s.len = s'.len ∧
      exec (.venc32 300#32) s = .next t ∧ exec (.venc32 300#32) s' = .next t' :=
  ⟨bench [0x01#8], { answered [0x01#8] (.fault .overlong 7) with outbuf := [], outlen := 0 }, _, _,
    by decide, rfl, rfl, rfl, rfl⟩

theorem witness_OnlyDecodesReportAFault :
    ((∀ off, Instr.zzenc32 0#32 ≠ .vdec32 off) ∧ (∀ off, Instr.zzenc32 0#32 ≠ .vdec64 off)) ∧
    exec (.vdec32 0) (bench (conts 4 0x80#8)) =
      .next (answered (conts 4 0x80#8) (.fault .overlong 0)) ∧
    exec (.vdec32 9) (bench (conts 4 0x80#8)) =
      .next (answered (conts 4 0x80#8) (.fault .truncated 9)) ∧
    exec (.vdec64 0) (bench (conts 4 0x80#8)) =
      .next (answered (conts 4 0x80#8) (.fault .truncated 0)) ∧
    (∀ f off, (Response.fault f off).status.code ≠ 0#2) :=
  ⟨⟨by simp, by simp⟩, rfl, rfl, rfl, fun f _ => by
    cases f
    · show (1#2) ≠ 0#2; decide
    · show (2#2) ≠ 0#2; decide⟩

/-! Round trips: the bytes the encode appended at 2 are laid out at 1, behind a foreign byte. -/

theorem witness_Vdec32ReadsBackWhatVenc32Appended : ∃ t,
    exec (.venc32 300#32) (bench []) = .next t ∧ t.outlen = (bench []).outlen + 2 ∧
    (∀ j < 2, (bench [0xEE#8, 0xD8#8, 0x04#8]).inseq.read (1 + j) =
      t.outbuf.read ((bench []).outlen + j)) ∧ 1 + 2 ≤ (bench [0xEE#8, 0xD8#8, 0x04#8]).len :=
  ⟨_, rfl, rfl, by decide, by decide⟩

theorem witness_Vdec64ReadsBackWhatVenc64Appended : ∃ t,
    exec (.venc64 0x8000000000000000#64) (bench []) = .next t ∧ t.outlen = (bench []).outlen + 10 ∧
    (∀ j < 10, (bench (List.replicate 9 0xFF#8 ++ [0x01#8])).inseq.read (0 + j) =
      t.outbuf.read ((bench []).outlen + j)) ∧
    0 + 10 ≤ (bench (List.replicate 9 0xFF#8 ++ [0x01#8])).len :=
  ⟨_, rfl, rfl, by decide, by decide⟩

theorem witness_SequencesDecodeInOrder :
    (∃ t, execAll ([63#32, 64#32].map .venc32) (bench []) = .next t ∧
      t.outlen = (bench []).outlen + 3 ∧
      (∀ j < 3, (bench [0x7E#8, 0x80#8, 0x01#8]).inseq.read (0 + j) =
        t.outbuf.read ((bench []).outlen + j)) ∧ 0 + 3 ≤ (bench [0x7E#8, 0x80#8, 0x01#8]).len) ∧
    (∃ t, execAll ([63#64, 64#64].map .venc64) (bench []) = .next t ∧
      t.outlen = (bench []).outlen + 3 ∧
      (∀ j < 3, (bench [0x7E#8, 0x80#8, 0x01#8]).inseq.read (0 + j) =
        t.outbuf.read ((bench []).outlen + j))) :=
  ⟨⟨_, rfl, rfl, by decide, by decide⟩, ⟨_, rfl, rfl, by decide⟩⟩

/-- Clause (a), clause (b) at five bytes, clause (c) on both sides of five bytes (spec/95_test_vectors.md
P2, P5). -/
theorem witness_WidthsAgreeWhereTheValueFits :
    (∃ t t', exec (.venc32 0x80000000#32) (bench []) = .next t ∧
      exec (.venc64 ((0x80000000#32).signExtend 64)) (bench []) = .next t' ∧
      t.outlen = (bench []).outlen + 5 ∧
      (∀ j < 5, (bench [0xFF#8, 0xFF#8, 0xFF#8, 0xFF#8, 0x0F#8]).inseq.read (0 + j) =
        t.outbuf.read ((bench []).outlen + j))) ∧
    (∃ t, exec (.venc64 0xFFFFFFFF7FFFFFFF#64) (bench []) = .next t ∧
      t.outlen = (bench []).outlen + 5 ∧
      (∀ j < 5, (bench [0x81#8, 0x80#8, 0x80#8, 0x80#8, 0x10#8]).inseq.read (0 + j) =
        t.outbuf.read ((bench []).outlen + j))) ∧
    (∃ t, exec (.venc64 0x0000000400000000#64) (bench []) = .next t ∧
      t.outlen = (bench []).outlen + 6 ∧
      (∀ j < 6, (bench (conts 5 0x01#8)).inseq.read (0 + j) =
        t.outbuf.read ((bench []).outlen + j)) ∧ 0 + 6 ≤ (bench (conts 5 0x01#8)).len) :=
  ⟨⟨_, _, rfl, rfl, rfl, by decide⟩, ⟨_, rfl, rfl, by decide⟩, ⟨_, rfl, rfl, by decide, by decide⟩⟩

/-! The ports and reset. -/

/-- Each kind of response can be offered; for the clause on width 32, the two responses without a value. -/
theorem witness_ResponsePortCarriesTheResponse :
    (∀ (req : Request) (rsp : Response), (busy (.respond req rsp)).phase = .respond req rsp) ∧
    ((Response.enc 5).answers (decode (encode (.venc32 0x80000000#32))) ∧
      (encode (.venc32 0x80000000#32)).op.getLsbD 0 = false) ∧
    ((Response.fault .truncated 3).answers (decode (encode (.vdec32 3))) ∧
      (encode (.vdec32 3)).op.getLsbD 0 = false) :=
  ⟨fun _ _ => rfl, ⟨⟨by decide, by decide⟩, rfl⟩, rfl, rfl⟩

theorem witness_PortsKeepTheCoresPromises (instant : Nat) :
    ((busy faultOffered).Inv ∧ ((busy faultOffered).wires instant).rspValid = true) ∧
    ((busy dec64Late).Inv ∧ ((busy dec64Late).wires instant).rdValid = true ∧
      ((busy dec64Late).wires instant).rdIdx = 9) ∧
    ((busy enc32Late).Inv ∧ ((busy enc32Late).wires instant).apByte = 0x0F#8) :=
  ⟨⟨witness_busy_inv.2.2.2.2, rfl⟩, ⟨witness_busy_inv.2.2.2.1, rfl, rfl⟩,
   ⟨witness_busy_inv.1, by show nextByte 0xF#32 = 0x0F#8; decide⟩⟩

/-- An encode abandoned before its first byte, and before its last of ten; a decode abandoned. -/
theorem witness_ResetDuringAnOperationAbandonsIt :
    (twoCommands.phase = .idle ∧ twoCommands.requests =
      [encode (.venc64 0x8000000000000000#64), encode (.vdec32 1)] ∧
      0 < (storedBytes (decode (encode (.venc64 0x8000000000000000#64)))).length ∧
      9 < (storedBytes (decode (encode (.venc64 0x8000000000000000#64)))).length) ∧
    (∃ t, beat .accept twoCommands = .next t) ∧
    (∃ t, beat (.readAnswer 0xFF#8) (busy dec32Late) = .next t) :=
  ⟨⟨rfl, rfl, by decide, by decide⟩, ⟨_, rfl⟩, ⟨_, rfl⟩⟩

/-- An idle core with `len` available bytes, none of them supplied, and the command `i` offered. -/
def offered (i : Instr) (len : Nat) : State :=
  ({ bench [] with len := len } : State).offering (encode i)

/-- The premises of `DecodeUsesTheBytesTheReadPortReturned` but for the ending. -/
def ReturnPremises (i : Instr) (len : Nat) (bs : List Byte) : Prop :=
  (offered i len).phase = .idle ∧ (offered i len).requests = [encode i] ∧ decode (encode i) = i ∧
    (bs ≠ [] → (encode i).off + bs.length ≤ (offered i len).len)

/-- (a) with one byte and with ten; (b) at both widths; (c) with none and with nine. -/
theorem witness_DecodeUsesTheBytesTheReadPortReturned :
    (ReturnPremises (.vdec32 0) 1 [0x01#8] ∧ [0x01#8] = [] ++ [0x01#8] ∧
      (0x01#8).getLsbD 7 = false) ∧
    (ReturnPremises (.vdec64 0) 10 (conts 9 0x01#8) ∧ (conts 9 0x01#8).length ≤ 10 ∧
      ∀ c ∈ List.replicate 9 0x80#8, c.getLsbD 7 = true) ∧
    (ReturnPremises (.vdec32 0) 5 (conts 4 0x80#8) ∧ (conts 4 0x80#8).length = 5 ∧
      ∀ c ∈ conts 4 0x80#8, c.getLsbD 7 = true) ∧
    (ReturnPremises (.vdec64 0) 11 (conts 9 0x80#8) ∧ (conts 9 0x80#8).length = 10 ∧
      ∀ c ∈ conts 9 0x80#8, c.getLsbD 7 = true) ∧
    (ReturnPremises (.vdec32 7) 3 [] ∧ 3 ≤ 7 + ([] : List Byte).length) ∧
    (ReturnPremises (.vdec64 0) 9 (conts 8 0x80#8) ∧ (conts 8 0x80#8).length < 10 ∧
      9 ≤ 0 + (conts 8 0x80#8).length ∧ ∀ c ∈ conts 8 0x80#8, c.getLsbD 7 = true) := by
  unfold ReturnPremises
  refine ⟨?_, ?_, ?_, ?_, ?_, ?_⟩ <;> decide

theorem witness_ForbiddenHostMovesAreRefused :
    (busy dec32Late).phase.decoding = true ∧ (busy enc32Late).phase.encoding = true ∧
    (busy faultOffered).phase ≠ .idle := by decide

/-! A command word runs as the first after reset. -/

theorem test_first_command_after_reset :
    step (State.reset.withFetchWord 67 (300 * 2 ^ 3 + 0b000)) =
      .next { State.reset with
        outbuf := [(0, 0xD8#8), (1, 0x04#8)], outlen := 2, responses := [.enc 2] } := rfl

end Sys2Proof.Tests
end

section
/-! SUPPORT. The four ZZ operations (spec/40_zigzag.md R75 to R78): the request that carries each, what it does in
a state, what its response shows on the bus, and the statements about them. -/

namespace Sys2Proof

/-- The operand half of the bus as the bit slice R15 writes, `req_val[31:0]`. -/
theorem operand32_eq_extractLsb' (val : BitVec 64) : operand32 val = val.extractLsb' 0 32 :=
  BitVec.setWidth_eq_extractLsb' (by decide)

theorem decode_zzenc32 (val : BitVec 64) (off : Nat) :
    decode ⟨0b100#3, val, off⟩ = .zzenc32 (val.extractLsb' 0 32) := by
  simp [decode, operand32_eq_extractLsb']

theorem decode_zzenc64 (val : BitVec 64) (off : Nat) :
    decode ⟨0b101#3, val, off⟩ = .zzenc64 val := by simp [decode]

theorem decode_zzdec32 (val : BitVec 64) (off : Nat) :
    decode ⟨0b110#3, val, off⟩ = .zzdec32 (val.extractLsb' 0 32) := by
  simp [decode, operand32_eq_extractLsb']

theorem decode_zzdec64 (val : BitVec 64) (off : Nat) :
    decode ⟨0b111#3, val, off⟩ = .zzdec64 val := by simp [decode]

end Sys2Proof

namespace Sys2Proof.Machine

/-- A 32-bit result with the bus's upper half written out: zeros, whatever the result's sign (R15). -/
theorem bus32_eq_append (v : BitVec 32) : bus32 v = 0#32 ++ v :=
  BitVec.setWidth_eq_append (by decide)

theorem Response.zz32_val (v : BitVec 32) : (Response.zz32 v).val = some (0#32 ++ v) :=
  congrArg some (bus32_eq_append v)

section Results

variable {n v : BitVec 32} {m u : BitVec 64} (s : State)

/-- ZZENC32 answers the result of its function, and changes nothing but the responses. -/
theorem exec_zzenc32_of_zzEnc_eq (h : zzEnc n = v) :
    exec (.zzenc32 n) s = .next { s with responses := s.responses ++ [.zz32 v] } := by
  subst h; rfl

/-- ZZENC64 answers the result of its function, and changes nothing but the responses. -/
theorem exec_zzenc64_of_zzEnc_eq (h : zzEnc m = u) :
    exec (.zzenc64 m) s = .next { s with responses := s.responses ++ [.zz64 u] } := by
  subst h; rfl

/-- ZZDEC32 answers the result of its function, and changes nothing but the responses. -/
theorem exec_zzdec32_of_zzDec_eq (h : zzDec n = v) :
    exec (.zzdec32 n) s = .next { s with responses := s.responses ++ [.zz32 v] } := by
  subst h; rfl

/-- ZZDEC64 answers the result of its function, and changes nothing but the responses. -/
theorem exec_zzdec64_of_zzDec_eq (h : zzDec m = u) :
    exec (.zzdec64 m) s = .next { s with responses := s.responses ++ [.zz64 u] } := by
  subst h; rfl

end Results

/-- Settles O11: `zzEnc` at width 32 is the rule's formula, and each corner case is its value at one operand. -/
theorem zzenc32Responds : Obligations.Zzenc32Responds := by
  refine ⟨fun s val off => ?_, fun s => ⟨?_, ?_, ?_, ?_⟩⟩
  · exact ⟨_, _, rfl, decode_zzenc32 val off, rfl, exec_zzenc32_of_zzEnc_eq s rfl, rfl,
      Response.zz32_val _⟩
  all_goals exact exec_zzenc32_of_zzEnc_eq s (by decide)

/-- Settles O12: `zzEnc` at width 64 is the rule's formula, and each corner case is its value at one operand. -/
theorem zzenc64Responds : Obligations.Zzenc64Responds := by
  refine ⟨fun s n off => ?_, fun s => ⟨?_, ?_, ?_, ?_, ?_⟩⟩
  · exact ⟨_, decode_zzenc64 n off, rfl, exec_zzenc64_of_zzEnc_eq s rfl, rfl, rfl⟩
  all_goals exact exec_zzenc64_of_zzEnc_eq s (by decide)

/-- Settles O13: `zzDec` at width 32 is the rule's formula, and each corner case is its value at one operand. -/
theorem zzdec32Responds : Obligations.Zzdec32Responds := by
  refine ⟨fun s val off => ?_, fun s => ⟨?_, ?_, ?_, ?_⟩⟩
  · exact ⟨_, _, rfl, decode_zzdec32 val off, rfl, exec_zzdec32_of_zzDec_eq s rfl, rfl,
      Response.zz32_val _⟩
  all_goals exact exec_zzdec32_of_zzDec_eq s (by decide)

/-- Settles O14: `zzDec` at width 64 is the rule's formula, and each corner case is its value at one operand. -/
theorem zzdec64Responds : Obligations.Zzdec64Responds := by
  refine ⟨fun s u off => ?_, fun s => ⟨?_, ?_, ?_, ?_, ?_⟩⟩
  · exact ⟨_, decode_zzdec64 u off, rfl, exec_zzdec64_of_zzDec_eq s rfl, rfl, rfl⟩
  all_goals exact exec_zzdec64_of_zzDec_eq s (by decide)

end Sys2Proof.Machine
end

section
/-! SUPPORT. The 32-bit codec (spec/41_varint32.md R80, R82): the bytes the encode loop emits and what the decode
loop makes of the bytes it reads, at every width, then the two statements. -/

namespace Sys2Proof

theorem decode_venc32 (val : BitVec 64) (off : Nat) :
    decode ⟨0b000#3, val, off⟩ = .venc32 (val.extractLsb' 0 32) := by
  simp [decode, operand32_eq_extractLsb']

theorem decode_vdec32 (val : BitVec 64) (off : Nat) :
    decode ⟨0b010#3, val, off⟩ = .vdec32 off := by simp [decode]

end Sys2Proof

namespace Sys2Proof.Machine

/-! The byte format in numbers. -/

theorem encodedByte_eq_ofNat (c : Bool) (g : Group) :
    encodedByte c g = BitVec.ofNat 8 (g.toNat + if c then 128 else 0) := by
  have hg : g.toNat < 2 ^ 7 := g.isLt
  apply BitVec.eq_of_toNat_eq
  rw [encodedByte, BitVec.toNat_append, BitVec.toNat_ofNat, ← Nat.shiftLeft_add_eq_or_of_lt hg]
  cases c <;> simp <;> omega

theorem nextByte_eq_ofNat {w : Nat} (u : BitVec w) :
    nextByte u = BitVec.ofNat 8 (u.toNat % 128 + if more u then 128 else 0) := by
  simp [nextByte, encodedByte_eq_ofNat, low7_toNat]

theorem group_toNat (b : Byte) : (group b).toNat = b.toNat % 128 := by
  simp [group, BitVec.extractLsb'_toNat]

/-! The encode loop: how many bytes, and which. -/

/-- One pass of the loop leaves a magnitude that fits one group less. -/
theorem rest_toNat_lt {w n : Nat} {u : BitVec w} (h : u.toNat < 2 ^ (7 * (n + 1))) :
    (rest u).toNat < 2 ^ (7 * n) := by
  rw [rest_toNat]
  apply Nat.div_lt_of_lt_mul
  rwa [← Nat.pow_add, Nat.add_comm]

/-- A loop that goes on has at least one more pass allowed. -/
theorem exists_pass_of_more {w n : Nat} {u : BitVec w} (h : u.toNat < 2 ^ (7 * (n + 1)))
    (hu : more u = true) : ∃ m, n = m + 1 := by
  have h7 := (more_iff u).1 hu
  cases n with
  | zero => omega
  | succ m => exact ⟨m, rfl⟩

/-- The groups emitted hold the whole magnitude (spec/30_encoding.md R56). -/
theorem toNat_lt_of_encodeBytes_length {w : Nat} (n : Nat) (u : BitVec w)
    (h : u.toNat < 2 ^ (7 * n)) : u.toNat < 2 ^ (7 * (encodeBytes n u).length) := by
  induction n generalizing u with
  | zero => exact h
  | succ n ih =>
    rw [encodeBytes]
    split
    · have hr := ih (rest u) (rest_toNat_lt h)
      rw [rest_toNat, Nat.div_lt_iff_lt_mul (by decide), ← Nat.pow_add] at hr
      exact hr
    · next hu => exact not_le.1 (mt (more_iff u).2 hu)

/-- No fewer groups hold the magnitude (spec/30_encoding.md R56). -/
theorem encodeBytes_length_least {w : Nat} (n : Nat) (u : BitVec w) :
    (encodeBytes (n + 1) u).length = 1 ∨
      2 ^ (7 * ((encodeBytes (n + 1) u).length - 1)) ≤ u.toNat := by
  by_contra! hc
  obtain ⟨h1, hlt⟩ := hc
  have hpos := encodeBytes_length_pos n u
  have := encodeBytes_length_le_of_lt (n + 1) _ u hlt (by omega)
  omega

/-- Byte `i` carries group `i` of the magnitude, and the continuation bit unless it is the last
(spec/41_varint32.md R81 b). -/
theorem encodeBytes_getElem? {w : Nat} (n : Nat) (u : BitVec w) (h : u.toNat < 2 ^ (7 * n))
    (i : Nat) (hi : i < (encodeBytes n u).length) :
    (encodeBytes n u)[i]? = some (BitVec.ofNat 8
      (u.toNat / 2 ^ (7 * i) % 128 + if i + 1 < (encodeBytes n u).length then 128 else 0)) := by
  induction n generalizing u i with
  | zero => cases hi
  | succ n ih =>
    by_cases hu : more u = true
    · have hcons : encodeBytes (n + 1) u = nextByte u :: encodeBytes n (rest u) := if_pos hu
      rw [hcons] at hi ⊢
      obtain ⟨m, rfl⟩ := exists_pass_of_more h hu
      have hpos := encodeBytes_length_pos m (rest u)
      cases i with
      | zero =>
        rw [List.length_cons, if_pos (by omega)]
        simp [nextByte_eq_ofNat, hu]
      | succ i =>
        have hshift : (rest u).toNat / 2 ^ (7 * i) = u.toNat / 2 ^ (7 * (i + 1)) := by
          rw [rest_toNat, Nat.div_div_eq_div_mul, ← Nat.pow_add, Nat.add_comm, Nat.mul_succ]
        rw [List.getElem?_cons_succ, ih _ (rest_toNat_lt h) i (by simpa using hi), hshift]
        simp
    · have hlast : encodeBytes (n + 1) u = [nextByte u] := if_neg hu
      rw [hlast] at hi ⊢
      obtain rfl : i = 0 := by simpa using hi
      simp [nextByte_eq_ofNat, hu]

section EncodeFrom

variable {w : Nat} (s : State) (n : Nat) (u : BitVec w)

/-- The encode loop changes OUTBUF, OUTLEN and the responses only. -/
theorem State.encodeFrom_frame (k : Nat) :
    s.encodeFrom n u k =
      { s with
        outbuf := (s.encodeFrom n u k).outbuf
        outlen := s.outlen + (encodeBytes n u).length
        responses := s.responses ++ [.enc (k + (encodeBytes n u).length)] } := by
  rw [encodeFrom_eq, appendAll_frame]
  rfl

/-- The bytes the encode loop puts from the old OUTLEN on. -/
theorem State.encodeFrom_read_appended (k : Nat) (h : u.toNat < 2 ^ (7 * n)) (i : Nat)
    (hi : i < (encodeBytes n u).length) :
    (s.encodeFrom n u k).outbuf.read (s.outlen + i) = some (BitVec.ofNat 8
      (u.toNat / 2 ^ (7 * i) % 128 + if i + 1 < (encodeBytes n u).length then 128 else 0)) := by
  rw [encodeFrom_eq, respond_outbuf, appendAll_read, if_pos (by omega), Nat.add_sub_cancel_left,
    encodeBytes_getElem? n u h i hi]

/-- Every other byte of OUTBUF is as before. -/
theorem State.encodeFrom_read_other (k a : Nat)
    (ha : a < s.outlen ∨ s.outlen + (encodeBytes n u).length ≤ a) :
    (s.encodeFrom n u k).outbuf.read a = s.outbuf.read a := by
  rw [encodeFrom_eq, respond_outbuf, appendAll_read, if_neg (by omega)]

end EncodeFrom

/-- Settles O17: the bytes are those of `encodeBytes` on the zigzag of the operand, whose five groups hold any
32-bit magnitude; the frame is that of the encode loop. -/
theorem venc32AppendsItsValue : Obligations.Venc32AppendsItsValue := by
  intro s val off
  have hfit : (zzEnc (val.extractLsb' 0 32)).toNat < 2 ^ (7 * 5) :=
    lt_trans (BitVec.isLt _) (by decide)
  refine ⟨_, zzEnc (val.extractLsb' 0 32), (encodeBytes 5 (zzEnc (val.extractLsb' 0 32))).length,
    s.encodeFrom 5 (zzEnc (val.extractLsb' 0 32)) 0, rfl, decode_venc32 val off, rfl,
    encodeBytes_length_pos 4 _, encodeBytes_length_le 5 _, toNat_lt_of_encodeBytes_length 5 _ hfit,
    encodeBytes_length_least 4 _, rfl, ?_, s.encodeFrom_read_appended 5 _ 0 hfit,
    s.encodeFrom_read_other 5 _ 0, ?_, rfl, ?_⟩
  · rw [State.encodeFrom_frame]
  · rw [State.encodeFrom_frame, Nat.zero_add]
  · rw [State.encodeFrom_frame]
    exact ⟨rfl, rfl, rfl, rfl, rfl⟩

/-! The value of the bytes a decode gathers. -/

/-- The magnitude the groups of the first `k` bytes write, not yet cut to a width (spec/30_encoding.md R55). -/
def groupSum (b : Nat → Byte) (k : Nat) : Nat :=
  ∑ i ∈ Finset.range k, (b i).toNat % 128 * 2 ^ (7 * i)

theorem groupSum_succ (b : Nat → Byte) (k : Nat) :
    groupSum b (k + 1) = groupSum b k + (b k).toNat % 128 * 2 ^ (7 * k) :=
  Finset.sum_range_succ _ _

theorem groupSum_lt (b : Nat → Byte) (k : Nat) : groupSum b k < 2 ^ (7 * k) := by
  induction k with
  | zero => exact Nat.one_pos
  | succ k ih =>
    have hg : (b k).toNat % 128 ≤ 127 := by omega
    have hmul := Nat.mul_le_mul_right (2 ^ (7 * k)) hg
    have hpow : 2 ^ (7 * (k + 1)) = 128 * 2 ^ (7 * k) := by
      rw [Nat.mul_succ, Nat.pow_add, Nat.mul_comm]
    rw [groupSum_succ]
    omega

theorem gather_append {w : Nat} (acc : BitVec w) (k : Nat) (bs cs : List Byte) :
    gather acc k (bs ++ cs) = gather (gather acc k bs) (k + bs.length) cs := by
  induction bs generalizing acc k with
  | nil => rfl
  | cons b bs ih =>
    rw [List.cons_append, gather, ih, gather, List.length_cons, Nat.add_assoc, Nat.add_comm 1]

/-- The first `k` bytes `b`, as the list the decode loop consumes. -/
def firstBytes (b : Nat → Byte) (k : Nat) : List Byte :=
  (List.range k).map b

@[simp] theorem firstBytes_length (b : Nat → Byte) (k : Nat) : (firstBytes b k).length = k := by
  simp [firstBytes]

theorem firstBytes_getElem? (b : Nat → Byte) {j k : Nat} (h : j < k) :
    (firstBytes b k)[j]? = some (b j) := by
  simp [firstBytes, h]

theorem gather_firstBytes_succ {w : Nat} (b : Nat → Byte) (k : Nat) :
    gather 0#w 0 (firstBytes b (k + 1)) = accumulate (gather 0#w 0 (firstBytes b k)) (b k) k := by
  rw [firstBytes, List.range_succ, List.map_append, gather_append]
  simp [gather, firstBytes]

/-- The accumulator is the groups' magnitude modulo 2^W, as long as every group but the last lies below the
width (spec/41_varint32.md R83 b, d). -/
theorem gather_firstBytes {w : Nat} (b : Nat → Byte) (k : Nat) (hw : 7 * k ≤ w + 7)
    (hw2 : 7 * k ≤ 2 * w) : gather 0#w 0 (firstBytes b k) = BitVec.ofNat w (groupSum b k) := by
  induction k with
  | zero => rfl
  | succ k ih =>
    have hacc : (BitVec.ofNat w (groupSum b k)).toNat < 2 ^ (7 * k) := by
      rw [BitVec.toNat_ofNat]
      exact (Nat.mod_le _ _).trans_lt (groupSum_lt b k)
    apply BitVec.eq_of_toNat_eq
    rw [gather_firstBytes_succ, ih (by omega) (by omega),
      ← Nat.mod_eq_of_lt (BitVec.isLt (accumulate _ _ _)),
      accumulate_toNat _ _ _ (by omega) (by omega) hacc, group_toNat, groupSum_succ,
      BitVec.toNat_ofNat, BitVec.toNat_ofNat, ← Nat.add_mod]

/-! The decode loop on bytes read one after another. -/

section DecodeLoop

variable {w : Nat} {m : Memory} {len off : Nat}

/-- The next byte needed is at or beyond LEN (spec/60_exceptions.md R101). -/
theorem decodeLoop_truncated {todo k : Nat} (acc : BitVec w) (ht : 0 < todo) (h : len ≤ off + k) :
    decodeLoop m len off todo acc k = .raised .truncated := by
  obtain ⟨todo, rfl⟩ := Nat.exists_eq_succ_of_ne_zero ht.ne'
  exact if_pos h

/-- A byte below LEN with clear continuation bit ends the value. -/
theorem decodeLoop_stop {todo k : Nat} {c : Byte} (acc : BitVec w) (ht : 0 < todo) (h : off + k < len)
    (hr : m.read (off + k) = some c) (hc : contBit c = false) :
    decodeLoop m len off todo acc k = .value (accumulate acc c k) (k + 1) := by
  obtain ⟨todo, rfl⟩ := Nat.exists_eq_succ_of_ne_zero ht.ne'
  rw [decodeLoop, if_neg (by omega), hr]
  exact if_pos hc

variable {b : Nat → Byte} {k todo : Nat}

/-- Continuation bytes below LEN bring the loop to the byte after them. -/
theorem decodeLoop_continue (hk : k ≤ todo)
    (h : ∀ i < k, off + i < len ∧ m.read (off + i) = some (b i) ∧ contBit (b i) = true) :
    decodeLoop m len off todo (0#w) 0 =
      decodeLoop m len off (todo - k) (gather 0#w 0 (firstBytes b k)) k := by
  obtain ⟨left, rfl⟩ := Nat.exists_eq_add_of_le' hk
  rw [Nat.add_sub_cancel]
  cases k with
  | zero => rfl
  | succ k =>
    have hlen : off + k < len := (h k k.lt_succ_self).1
    have hcont : ∀ c ∈ firstBytes b (k + 1), contBit c = true := by
      intro c hc
      obtain ⟨i, hi, rfl⟩ := List.mem_map.1 hc
      exact (h i (List.mem_range.1 hi)).2.2
    have hread : ∀ j < (firstBytes b (k + 1)).length,
        m.read (off + 0 + j) = (firstBytes b (k + 1))[j]? := by
      intro j hj
      rw [firstBytes_length] at hj
      rw [firstBytes_getElem? b hj]
      exact (h j hj).2.1
    simpa using decodeLoop_gather (firstBytes b (k + 1)) hcont left (0#w) 0 (by simp; omega) hread

/-- `k` continuation bytes and a last one, all below LEN, give their groups modulo 2^W and their count. -/
theorem decodeLoop_value (hk : k < todo) (hw : 7 * k ≤ w) (hw2 : 7 * (k + 1) ≤ 2 * w)
    (hlen : off + k < len) (hread : ∀ i ≤ k, m.read (off + i) = some (b i))
    (hcont : ∀ i < k, contBit (b i) = true) (hstop : contBit (b k) = false) :
    decodeLoop m len off todo (0#w) 0 = .value (BitVec.ofNat w (groupSum b (k + 1))) (k + 1) := by
  rw [decodeLoop_continue hk.le fun i hi => ⟨by omega, hread i hi.le, hcont i hi⟩,
    decodeLoop_stop _ (by omega) hlen (hread k le_rfl) hstop, ← gather_firstBytes_succ,
    gather_firstBytes b (k + 1) (by omega) hw2]

end DecodeLoop

/-- VDEC32 gives the response its loop's end calls for. -/
theorem exec_vdec32_of_decodeLoop {s : State} {off : Nat} {e : DecodeEnd 32}
    (h : decodeLoop s.inseq s.len off 5 0#32 0 = e) :
    exec (.vdec32 off) s = s.endDecode32 off e := by
  subst h; rfl

theorem Response.dec32_val (v : BitVec 32) (off cnt : Nat) :
    (Response.dec32 v off cnt).val = some (0#32 ++ v) :=
  congrArg some (bus32_eq_append v)

/-- Settles O22: after its continuation bytes the decode loop stands before a last byte, before LEN, or past its
fifth byte. -/
theorem vdec32ReadsOneValue : Obligations.Vdec32ReadsOneValue := by
  intro s val off b
  refine ⟨decode_vdec32 val off, ?_, fun f => ⟨rfl, rfl, rfl⟩, rfl, rfl, ?_, ?_⟩
  · intro L hpos hL hlen hread hcont hstop
    obtain ⟨k, rfl⟩ := Nat.exists_eq_add_of_le' hpos
    refine ⟨_, _, rfl, rfl, ?_, rfl, Response.dec32_val _ _ _⟩
    exact exec_vdec32_of_decodeLoop (decodeLoop_value (by omega) (by omega) (by omega) (by omega)
      (fun i hi => hread i (by omega)) (fun i hi => hcont i (by omega)) hstop)
  · intro k hk hend h
    exact exec_vdec32_of_decodeLoop
      ((decodeLoop_continue hk.le h).trans (decodeLoop_truncated _ (by omega) hend))
  · intro hlen h
    exact exec_vdec32_of_decodeLoop (decodeLoop_continue le_rfl fun i hi => ⟨by omega, h i hi⟩)

end Sys2Proof.Machine
end

section
/-! SUPPORT. The 64-bit codec (spec/42_varint64.md R90, R92): the rules proved at every width for the 32-bit codec,
used at width 64 with ten bytes, and the two statements. -/

namespace Sys2Proof

theorem decode_venc64 (val : BitVec 64) (off : Nat) :
    decode ⟨0b001#3, val, off⟩ = .venc64 val := by simp [decode]

theorem decode_vdec64 (val : BitVec 64) (off : Nat) :
    decode ⟨0b011#3, val, off⟩ = .vdec64 off := by simp [decode]

end Sys2Proof

namespace Sys2Proof.Machine

/-- VENC64 is the encode loop on the zigzag of its operand, with ten bytes allowed. -/
theorem exec_venc64_of_zzEnc_eq {v u : BitVec 64} (s : State) (h : zzEnc v = u) :
    exec (.venc64 v) s = .next (s.encodeFrom 10 u 0) := by
  subst h; rfl

/-- Ten groups hold every 64-bit magnitude (spec/30_encoding.md R56). -/
theorem toNat_lt_ten_groups (u : BitVec 64) : u.toNat < 2 ^ (7 * 10) :=
  u.isLt.trans (by decide)

/-- Settles O18: the bytes are those of `encodeBytes` on the zigzag of the operand, whose ten groups hold any
64-bit magnitude; the frame is that of the encode loop. -/
theorem venc64AppendsItsValue : Obligations.Venc64AppendsItsValue := by
  intro s v off
  obtain ⟨u, hu⟩ : ∃ u, zzEnc v = u := ⟨_, rfl⟩
  have hfit := toNat_lt_ten_groups u
  refine ⟨u, (encodeBytes 10 u).length, s.encodeFrom 10 u 0, decode_venc64 v off, hu.symm,
    encodeBytes_length_pos 9 u, encodeBytes_length_le 10 u, toNat_lt_of_encodeBytes_length 10 u hfit,
    encodeBytes_length_least 9 u, exec_venc64_of_zzEnc_eq s hu, ?_,
    s.encodeFrom_read_appended 10 u 0 hfit, s.encodeFrom_read_other 10 u 0, ?_, rfl, ?_⟩
  · rw [State.encodeFrom_frame]
  · rw [State.encodeFrom_frame, Nat.zero_add]
  · rw [State.encodeFrom_frame]
    exact ⟨rfl, rfl, rfl, rfl, rfl⟩

/-- VDEC64 gives the response its loop's end calls for. -/
theorem exec_vdec64_of_decodeLoop {s : State} {off : Nat} {e : DecodeEnd 64}
    (h : decodeLoop s.inseq s.len off 10 0#64 0 = e) :
    exec (.vdec64 off) s = s.endDecode64 off e := by
  subst h; rfl

/-- Settles O23: after its continuation bytes the decode loop stands before a last byte, before LEN, or past its
tenth byte. -/
theorem vdec64ReadsOneValue : Obligations.Vdec64ReadsOneValue := by
  intro s val off b
  refine ⟨decode_vdec64 val off, ?value, fun f => ⟨rfl, rfl, rfl⟩, rfl, rfl, ?truncated, ?overlong⟩
  case value =>
    intro L hpos hL hlen hread hcont hstop
    obtain ⟨k, rfl⟩ := Nat.exists_eq_add_of_le' hpos
    have hloop : decodeLoop s.inseq s.len off 10 0#64 0 =
        .value (BitVec.ofNat 64 (groupSum b (k + 1))) (k + 1) :=
      decodeLoop_value (by omega) (by omega) (by omega) (by omega)
        (fun i hi => hread i (by omega)) (fun i hi => hcont i (by omega)) hstop
    exact ⟨_, _, rfl, rfl, exec_vdec64_of_decodeLoop hloop, rfl, rfl⟩
  case truncated =>
    intro k hk hend h
    exact exec_vdec64_of_decodeLoop
      ((decodeLoop_continue hk.le h).trans (decodeLoop_truncated _ (by omega) hend))
  case overlong =>
    intro hlen h
    exact exec_vdec64_of_decodeLoop (decodeLoop_continue le_rfl fun i hi => ⟨by omega, h i hi⟩)

end Sys2Proof.Machine
end

section
/-! SUPPORT. Faults (spec/60_exceptions.md R100 to R102): which commands can report one, and what the input of a
decode that reports one looks like, at every width; then the statement. -/

namespace Sys2Proof.Machine

/-- The space holds a byte at `i`, and its continuation bit asks for another. -/
def Memory.ContinuesAt (m : Memory) (i : Nat) : Prop :=
  ∃ b, m.read i = some b ∧ contBit b = true

/-- What R101 and R102 name as the cause of a fault of a decode at `off` with at most `n` bytes to read: the
byte after `k` continuation bytes is not below LEN, or `n` continuation bytes are available. -/
def DecodeFault.Cause (m : Memory) (len off n : Nat) : DecodeFault → Prop
  | .truncated => ∃ k < n, len ≤ off + k ∧ ∀ i < k, off + i < len ∧ m.ContinuesAt (off + i)
  | .overlong => off + n ≤ len ∧ ∀ i < n, m.ContinuesAt (off + i)

section DecodeFaults

variable {w : Nat} {m : Memory} {len off : Nat}

theorem Memory.continuesAt_of_read_eq_getElem? {bs : List Byte} (hc : ∀ c ∈ bs, contBit c = true)
    (hr : ∀ j < bs.length, m.read (off + j) = bs[j]?) :
    ∀ i < bs.length, m.ContinuesAt (off + i) := fun i hi =>
  ⟨bs[i], (hr i hi).trans (List.getElem?_eq_getElem hi), hc _ (List.getElem_mem hi)⟩

/-- A decode loop raises a fault for its cause only. -/
theorem decodeLoop_raised_cause {n : Nat} {acc : BitVec w} {f : DecodeFault} (hn : 0 < n)
    (h : decodeLoop m len off n acc 0 = .raised f) : f.Cause m len off n := by
  rcases decodeLoop_cases m len off n acc 0 with ⟨_, _, -, -, -, -, -, he⟩ |
    ⟨bs, hlt, hc, hend, hfit, hr, he⟩ | ⟨bs, rfl, hc, hfit, hr, he⟩ | ⟨_, -, -, -, he⟩
  case inl | inr.inr.inr => rw [h] at he; cases he
  case inr.inl =>
    obtain rfl : f = .truncated := by rw [h] at he; injection he
    refine ⟨bs.length, hlt, hend, fun i hi => ⟨?_, ?_⟩⟩
    · have := hfit (List.ne_nil_of_length_pos (Nat.zero_lt_of_lt hi))
      omega
    · exact Memory.continuesAt_of_read_eq_getElem? hc hr i hi
  case inr.inr.inl =>
    obtain rfl : f = .overlong := by rw [h] at he; injection he
    exact ⟨hfit (List.ne_nil_of_length_pos hn), Memory.continuesAt_of_read_eq_getElem? hc hr⟩

end DecodeFaults

/-- The last response on the list is the one just given. -/
theorem State.eq_of_respond_responses {s : State} {r rsp : Response}
    (h : (s.respond r).responses = s.responses ++ [rsp]) : rsp = r := by
  simpa using h.symm

section Decodes

variable {s t : State} {off : Nat} {rsp : Response} (hr : t.responses = s.responses ++ [rsp])
  (hst : rsp.status.code ≠ 0#2)
include hr hst

/-- A VDEC32 whose status is not OK has the fault its loop raised. -/
theorem exec_vdec32_status_ne_ok (h : exec (.vdec32 off) s = .next t) :
    ∃ f, rsp = .fault f off ∧ f.Cause s.inseq s.len off 5 := by
  rcases endDecode32_next h with ⟨_, _, -, rfl⟩ | ⟨f, he, rfl⟩
  · obtain rfl := State.eq_of_respond_responses hr
    exact absurd rfl hst
  · exact ⟨f, State.eq_of_respond_responses hr, decodeLoop_raised_cause (by decide) he⟩

/-- A VDEC64 whose status is not OK has the fault its loop raised. -/
theorem exec_vdec64_status_ne_ok (h : exec (.vdec64 off) s = .next t) :
    ∃ f, rsp = .fault f off ∧ f.Cause s.inseq s.len off 10 := by
  rcases endDecode64_next h with ⟨_, _, -, rfl⟩ | ⟨f, he, rfl⟩
  · obtain rfl := State.eq_of_respond_responses hr
    exact absurd rfl hst
  · exact ⟨f, State.eq_of_respond_responses hr, decodeLoop_raised_cause (by decide) he⟩

end Decodes

/-- The encode loop gives one response, its count. -/
theorem State.encodeFrom_responses {w : Nat} (s : State) (n : Nat) (u : BitVec w) (k : Nat) :
    (s.encodeFrom n u k).responses = s.responses ++ [.enc (k + (encodeBytes n u).length)] := by
  rw [encodeFrom_frame]

/-- A command other than a decode answers with status OK (R100). -/
theorem exec_status_ok_of_not_decode (i : Instr) (s : State) (h32 : ∀ off, i ≠ .vdec32 off)
    (h64 : ∀ off, i ≠ .vdec64 off) :
    ∃ (t : State) (rsp : Response), exec i s = .next t ∧ t.responses = s.responses ++ [rsp] ∧
      rsp.status.code = 0#2 := by
  cases i with
  | venc32 v => exact ⟨_, _, rfl, s.encodeFrom_responses 5 (zzEnc v) 0, rfl⟩
  | venc64 v => exact ⟨_, _, rfl, s.encodeFrom_responses 10 (zzEnc v) 0, rfl⟩
  | vdec32 off => exact absurd rfl (h32 off)
  | vdec64 off => exact absurd rfl (h64 off)
  | zzenc32 n => exact ⟨_, .zz32 (zzEnc n), rfl, rfl, rfl⟩
  | zzenc64 n => exact ⟨_, .zz64 (zzEnc n), rfl, rfl, rfl⟩
  | zzdec32 u => exact ⟨_, .zz32 (zzDec u), rfl, rfl, rfl⟩
  | zzdec64 u => exact ⟨_, .zz64 (zzDec u), rfl, rfl, rfl⟩

/-- Settles O30: the encodes and the ZZ operations answer in every state, and a decode that does not answer OK
has the fault its loop raised, whose cause is R101's or R102's. -/
theorem onlyDecodesReportAFault : Obligations.OnlyDecodesReportAFault := by
  refine ⟨exec_status_ok_of_not_decode, fun s t off rsp h hr hst => ?_,
    fun s t off rsp h hr hst => ?_⟩
  · obtain ⟨f, rfl, hcause⟩ := exec_vdec32_status_ne_ok hr hst h
    cases f with
    | truncated => exact .inl ⟨rfl, hcause⟩
    | overlong => exact .inr ⟨rfl, hcause⟩
  · obtain ⟨f, rfl, hcause⟩ := exec_vdec64_status_ne_ok hr hst h
    cases f with
    | truncated => exact .inl ⟨rfl, hcause⟩
    | overlong => exact .inr ⟨rfl, hcause⟩

end Sys2Proof.Machine
end

section
/-! SUPPORT. Requests and the commands they carry (spec/30_encoding.md R50 to R52, R60): the decoder by op code, the
command word, and what a step makes of the request offered. -/

namespace Sys2Proof

/-! The decoder, op code by op code: which requests decode to which command. -/

section DecodeByOpCode

variable {r : Request}

theorem eq_mk_of_op {op : BitVec 3} (h : r.op = op) : r = ⟨op, r.val, r.off⟩ := by
  subst h; rfl

/-- The eight op codes R51 assigns are all there are (R60). -/
theorem Request.op_cases (r : Request) :
    r.op = 0b000#3 ∨ r.op = 0b001#3 ∨ r.op = 0b010#3 ∨ r.op = 0b011#3 ∨
      r.op = 0b100#3 ∨ r.op = 0b101#3 ∨ r.op = 0b110#3 ∨ r.op = 0b111#3 := by
  generalize r.op = op
  revert op
  decide

theorem decode_of_op_venc32 (h : r.op = 0b000#3) : decode r = .venc32 (r.val.extractLsb' 0 32) := by
  rw [eq_mk_of_op h]; exact decode_venc32 _ _

theorem decode_of_op_venc64 (h : r.op = 0b001#3) : decode r = .venc64 r.val := by
  rw [eq_mk_of_op h]; exact decode_venc64 _ _

theorem decode_of_op_vdec32 (h : r.op = 0b010#3) : decode r = .vdec32 r.off := by
  rw [eq_mk_of_op h]; exact decode_vdec32 _ _

theorem decode_of_op_vdec64 (h : r.op = 0b011#3) : decode r = .vdec64 r.off := by
  rw [eq_mk_of_op h]; exact decode_vdec64 _ _

theorem decode_of_op_zzenc32 (h : r.op = 0b100#3) : decode r = .zzenc32 (r.val.extractLsb' 0 32) := by
  rw [eq_mk_of_op h]; exact decode_zzenc32 _ _

theorem decode_of_op_zzenc64 (h : r.op = 0b101#3) : decode r = .zzenc64 r.val := by
  rw [eq_mk_of_op h]; exact decode_zzenc64 _ _

theorem decode_of_op_zzdec32 (h : r.op = 0b110#3) : decode r = .zzdec32 (r.val.extractLsb' 0 32) := by
  rw [eq_mk_of_op h]; exact decode_zzdec32 _ _

theorem decode_of_op_zzdec64 (h : r.op = 0b111#3) : decode r = .zzdec64 r.val := by
  rw [eq_mk_of_op h]; exact decode_zzdec64 _ _

end DecodeByOpCode

/-- Decoding undoes encoding. -/
theorem decode_encode (i : Instr) : decode (encode i) = i := by
  cases i <;> simp [encode, decode, operand32]

/-- The command word keeps the three fields apart (log 8). -/
theorem requestOfWord_wordOfRequest (r : Request) : requestOfWord (wordOfRequest r) = r := by
  obtain ⟨op, val, off⟩ := r
  have hop : op.toNat < 2 ^ 3 := op.isLt
  have hval : val.toNat < 2 ^ 64 := val.isLt
  have h1 : BitVec.ofNat 3 (op.toNat + val.toNat * 2 ^ 3 + off * 2 ^ 67) = op :=
    BitVec.eq_of_toNat_eq (by rw [BitVec.toNat_ofNat]; omega)
  have h2 : BitVec.ofNat 64 ((op.toNat + val.toNat * 2 ^ 3 + off * 2 ^ 67) / 2 ^ 3) = val :=
    BitVec.eq_of_toNat_eq (by rw [BitVec.toNat_ofNat]; omega)
  have h3 : (op.toNat + val.toNat * 2 ^ 3 + off * 2 ^ 67) / 2 ^ 67 = off := by omega
  simp only [requestOfWord, wordOfRequest, h1, h2, h3]

/-- The encoded request fits the port exactly when its command does. -/
theorem encode_wf (offw : Nat) (i : Instr) : (encode i).wf offw = i.wf offw := by
  cases i with
  | vdec32 off => rfl
  | vdec64 off => rfl
  | _ => simp [encode, Request.wf, Instr.wf]

/-- Settles O1: every constructor decodes back, the word keeps its fields apart, and only a decode's request has
an offset that could fail to fit. -/
theorem decodeOfEncodeIsTheCommand : Obligations.DecodeOfEncodeIsTheCommand := fun i =>
  ⟨decode_encode i, requestOfWord_wordOfRequest _, fun offw => encode_wf offw i⟩

/-- Settles O2: the table of R51, a row for each op code. -/
theorem eachOpCodeSelectsItsOperation : Obligations.EachOpCodeSelectsItsOperation := fun val off =>
  ⟨decode_venc32 val off, decode_venc64 val off, decode_vdec32 val off, decode_vdec64 val off,
    decode_zzenc32 val off, decode_zzenc64 val off, decode_zzdec32 val off, decode_zzdec64 val off⟩

end Sys2Proof

namespace Sys2Proof.Machine

/-- An idle core performs the command at the head of the list, taken off it. -/
theorem step_idle_cons {s : State} {r : Request} {rs : List Request} (hp : s.phase = .idle)
    (hr : s.requests = r :: rs) : step s = exec (decode r) (s.withRequests rs) := by
  simp [step, hp, State.accepted, hr]

theorem step_offering (s : State) (r : Request) :
    step (s.offering r) = exec (decode r) (s.withPhase .idle) :=
  step_idle_cons (s.offering_phase r) (s.offering_requests r)

/-- Settles O4: the three kinds of idle core. -/
theorem stepRunsTheCommandOffered : Obligations.StepRunsTheCommandOffered := by
  refine ⟨fun s r rs hp hr => step_idle_cons hp hr, fun s i => ?_, fun s hp hr => step_idle_nil hp hr⟩
  rw [step_offering, decode_encode]
  rfl

/-- Two requests that decode to one command take the same step. -/
theorem step_offering_congr (s : State) {r r' : Request} (h : decode r = decode r') :
    step (s.offering r) = step (s.offering r') := by
  rw [step_offering, step_offering, h]

/-- Settles O3: a command carries the field its operation reads and no other. -/
theorem unreadRequestFieldsChangeNothing : Obligations.UnreadRequestFieldsChangeNothing := by
  intro s r r' hop
  refine ⟨fun h hlow => ?low, fun h hval => ?val, fun h hoff => ?off⟩
  all_goals apply step_offering_congr
  case low =>
    have hhalf : r.val.extractLsb' 0 32 = r'.val.extractLsb' 0 32 := by
      apply BitVec.eq_of_getLsbD_eq
      intro j hj
      simpa [BitVec.getLsbD_extractLsb', hj] using hlow j hj
    rcases h with h | h | h
    · rw [decode_of_op_venc32 h, decode_of_op_venc32 (hop ▸ h), hhalf]
    · rw [decode_of_op_zzenc32 h, decode_of_op_zzenc32 (hop ▸ h), hhalf]
    · rw [decode_of_op_zzdec32 h, decode_of_op_zzdec32 (hop ▸ h), hhalf]
  case val =>
    rcases h with h | h | h
    · rw [decode_of_op_venc64 h, decode_of_op_venc64 (hop ▸ h), hval]
    · rw [decode_of_op_zzenc64 h, decode_of_op_zzenc64 (hop ▸ h), hval]
    · rw [decode_of_op_zzdec64 h, decode_of_op_zzdec64 (hop ▸ h), hval]
  case off =>
    rcases h with h | h
    · rw [decode_of_op_vdec32 h, decode_of_op_vdec32 (hop ▸ h), hoff]
    · rw [decode_of_op_vdec64 h, decode_of_op_vdec64 (hop ▸ h), hoff]

end Sys2Proof.Machine
end

section
/-! SUPPORT. The zigzag transform (spec/40_zigzag.md section 1): the integers it computes, and that its two
directions undo each other, at every width. -/

namespace Sys2Proof.Machine

section Zigzag

variable {w : Nat}

theorem zzEnc_getLsbD (n : BitVec w) {i : Nat} (hi : i < w) :
    (zzEnc n).getLsbD i = ((decide (0 < i) && n.getLsbD (i - 1)) ^^ n.msb) := by
  rw [zzEnc_eq]
  rcases Nat.eq_zero_or_pos i with rfl | hp
  · cases n.msb <;> simp [hi]
  · cases n.msb <;>
      simp [hi, hp, show ¬ i < 1 by omega, BitVec.getLsbD_eq_getElem (show i - 1 < w by omega)]

theorem zzDec_getLsbD (u : BitVec w) {i : Nat} (hi : i < w) :
    (zzDec u).getLsbD i = (u.getLsbD (i + 1) ^^ u.getLsbD 0) := by
  rw [zzDec_eq]
  cases u.getLsbD 0 <;> simp [hi, Nat.add_comm]

/-- The decode direction undoes the encode direction. -/
@[simp] theorem zzDec_zzEnc (n : BitVec w) : zzDec (zzEnc n) = n := by
  apply BitVec.eq_of_getLsbD_eq
  intro i hi
  rw [zzDec_getLsbD _ hi, zzEnc_getLsbD _ (Nat.zero_lt_of_lt hi)]
  by_cases hlast : i + 1 < w
  · rw [zzEnc_getLsbD _ hlast]
    simp
  · obtain rfl : w = i + 1 := by omega
    rw [BitVec.getLsbD_of_ge _ _ le_rfl, BitVec.msb_eq_getLsbD_last]
    simp

/-- The encode direction undoes the decode direction. -/
@[simp] theorem zzEnc_zzDec (u : BitVec w) : zzEnc (zzDec u) = u := by
  apply BitVec.eq_of_getLsbD_eq
  intro i hi
  have hmsb : (zzDec u).msb = u.getLsbD 0 := by
    rw [BitVec.msb_eq_getLsbD_last, zzDec_getLsbD _ (by omega), BitVec.getLsbD_of_ge _ _ (by omega)]
    simp
  rw [zzEnc_getLsbD _ hi, hmsb]
  rcases Nat.eq_zero_or_pos i with rfl | hp
  · simp
  · rw [zzDec_getLsbD _ (by omega), Nat.sub_add_cancel hp]
    simp [hp]

/-! The integers. -/

theorem two_mul_toNat_lt_of_nonneg {n : BitVec w} (h : 0 ≤ n.toInt) : 2 * n.toNat < 2 ^ w := by
  by_contra hc
  have := n.isLt
  rw [BitVec.toInt_eq_toNat_cond, if_neg hc] at h
  omega

/-- A non-negative value is doubled. -/
theorem zzEnc_toNat_of_nonneg {n : BitVec w} (h : 0 ≤ n.toInt) :
    ((zzEnc n).toNat : Int) = 2 * n.toInt := by
  have hlt := two_mul_toNat_lt_of_nonneg h
  have hmsb : n.msb = false := by simpa [BitVec.msb_eq_toInt] using h
  rw [zzEnc_eq, hmsb, if_neg Bool.false_ne_true, BitVec.toInt_eq_toNat_cond, if_pos hlt,
    BitVec.toNat_shiftLeft, Nat.shiftLeft_eq, Nat.pow_one, Nat.mul_comm, Nat.mod_eq_of_lt hlt]
  exact Nat.cast_mul 2 _

/-- A negative value is doubled, negated, and one less. -/
theorem zzEnc_toNat_of_neg {n : BitVec w} (h : n.toInt < 0) :
    ((zzEnc n).toNat : Int) = -2 * n.toInt - 1 := by
  have hlt := n.isLt
  have hmsb : n.msb = true := by simpa [BitVec.msb_eq_toInt] using h
  have hge : ¬ 2 * n.toNat < 2 ^ w := fun hc => by
    rw [BitVec.toInt_eq_toNat_cond, if_pos hc] at h
    omega
  have hmod : 2 * n.toNat % 2 ^ w = 2 * n.toNat - 2 ^ w := by
    rw [Nat.mod_eq_sub_mod (by omega), Nat.mod_eq_of_lt (by omega)]
  rw [zzEnc_eq, hmsb, if_pos rfl, BitVec.toInt_eq_toNat_cond, if_neg hge, BitVec.toNat_not,
    BitVec.toNat_shiftLeft, Nat.shiftLeft_eq, Nat.pow_one, Nat.mul_comm, hmod]
  omega

/-- An even magnitude is halved. -/
theorem zzDec_toInt_of_even {u : BitVec w} (h : u.toNat % 2 = 0) :
    2 * (zzDec u).toInt = (u.toNat : Int) := by
  have hlt := u.isLt
  have hlow : u.getLsbD 0 = false := by simp [BitVec.getLsbD, h]
  have hhalf : (zzDec u).toNat = u.toNat / 2 := by
    simp [zzDec_eq, hlow, Nat.shiftRight_eq_div_pow]
  rw [BitVec.toInt_eq_toNat_cond, hhalf, if_pos (by omega)]
  omega

/-- An odd magnitude is the negated half of the next. -/
theorem zzDec_toInt_of_odd {u : BitVec w} (h : u.toNat % 2 = 1) :
    2 * (zzDec u).toInt = -((u.toNat : Int) + 1) := by
  have hlt := u.isLt
  have hlow : u.getLsbD 0 = true := by simp [BitVec.getLsbD, h]
  have hhalf : (zzDec u).toNat = 2 ^ w - 1 - u.toNat / 2 := by
    simp [zzDec_eq, hlow, Nat.shiftRight_eq_div_pow]
  have hw : w ≠ 0 := by
    rintro rfl
    omega
  have heven : 2 ^ w % 2 = 0 := Nat.even_iff.1 (Nat.even_pow.2 ⟨even_two, hw⟩)
  rw [BitVec.toInt_eq_toNat_cond, hhalf, if_neg (by omega)]
  omega

end Zigzag

/-- Settles O15: the four readings, which hold at every width, at the two the core has. -/
theorem zigzagReadsAsIntegers : Obligations.ZigzagReadsAsIntegers :=
  ⟨fun _ => ⟨zzEnc_toNat_of_nonneg, zzEnc_toNat_of_neg⟩,
    fun _ => ⟨zzEnc_toNat_of_nonneg, zzEnc_toNat_of_neg⟩,
    fun _ => ⟨zzDec_toInt_of_even, zzDec_toInt_of_odd⟩,
    fun _ => ⟨zzDec_toInt_of_even, zzDec_toInt_of_odd⟩⟩

/-- Settles O16: the two directions are inverse functions, and each operation answers its function's value. -/
theorem zigzagOperationsUndoEachOther : Obligations.ZigzagOperationsUndoEachOther :=
  ⟨fun s n => ⟨zzEnc n, rfl, exec_zzdec32_of_zzDec_eq s (zzDec_zzEnc n)⟩,
    fun s u => ⟨zzDec u, rfl, exec_zzenc32_of_zzEnc_eq s (zzEnc_zzDec u)⟩,
    fun s n => ⟨zzEnc n, rfl, exec_zzdec64_of_zzDec_eq s (zzDec_zzEnc n)⟩,
    fun s u => ⟨zzDec u, rfl, exec_zzenc64_of_zzEnc_eq s (zzEnc_zzDec u)⟩⟩

end Sys2Proof.Machine
end

section
/-! SUPPORT. What a command that answers leaves (spec/20_memory.md R32): the bytes it appends, and that nothing else but
the list of responses changes. -/

namespace Sys2Proof.Machine

/-- The response given last is the last on the list. -/
theorem State.respond_inj {s s' : State} {r r' : Response} (h : s.respond r = s'.respond r') :
    r = r' := by
  simpa using congrArg (fun t => t.responses.getLast?) h

section ExecNext

variable {i : Instr} {s t : State}

theorem exec_outlen (h : exec i s = .next t) : t.outlen = s.outlen + (storedBytes i).length := by
  obtain ⟨r, rfl, -⟩ := exec_next h
  simp

/-- Byte `j` of those a command appends stands `j` behind the old OUTLEN. -/
theorem exec_read_stored (h : exec i s = .next t) {j : Nat} (hj : j < (storedBytes i).length) :
    t.outbuf.read (s.outlen + j) = (storedBytes i)[j]? := by
  obtain ⟨r, rfl, -⟩ := exec_next h
  rw [State.respond_outbuf, State.appendAll_read, if_pos (by omega), Nat.add_sub_cancel_left]

/-- Only the two encodes store anything (spec/30_encoding.md R51). -/
theorem storedBytes_eq_nil (h32 : ∀ v, i ≠ .venc32 v) (h64 : ∀ v, i ≠ .venc64 v) :
    storedBytes i = [] := by
  cases i with
  | venc32 v => exact absurd rfl (h32 v)
  | venc64 v => exact absurd rfl (h64 v)
  | _ => rfl

end ExecNext

/-- Settles O28: a command that stores nothing only gives its response. -/
theorem nonStoringCommandsOnlyRespond : Obligations.NonStoringCommandsOnlyRespond := by
  intro i s t h32 h64 h
  obtain ⟨rsp, rfl, -⟩ := exec_next h
  rw [storedBytes_eq_nil h32 h64]
  exact ⟨rsp, rfl, rfl, rfl, fun _ => rfl, rfl, fun _ => rfl, rfl, rfl, rfl, rfl⟩

end Sys2Proof.Machine
end

section
/-! SUPPORT. The length of an encoding (spec/30_encoding.md section 2), and that an encoding depends on the number
encoded alone, not on the width it is held in. -/

namespace Sys2Proof.Machine

section Lengths

variable {w : Nat} {u : BitVec w}

theorem encodeBytes_of_more {n : Nat} (h : more u = true) :
    encodeBytes (n + 1) u = nextByte u :: encodeBytes n (rest u) :=
  if_pos h

theorem more_eq_false_of_lt (h : u.toNat < 2 ^ 7) : more u = false :=
  Bool.eq_false_iff.2 (mt (more_iff u).1 (not_le.2 h))

theorem encodeBytes_of_not_more {n : Nat} (h : more u = false) :
    encodeBytes (n + 1) u = [nextByte u] :=
  if_neg (Bool.eq_false_iff.1 h)

/-- An encoding takes at most `m` bytes exactly when `m` groups hold the magnitude. -/
theorem encodeBytes_length_le_iff {n m : Nat} (hu : u.toNat < 2 ^ (7 * n)) (hm : 1 ≤ m) :
    (encodeBytes n u).length ≤ m ↔ u.toNat < 2 ^ (7 * m) := by
  refine ⟨fun h => (toNat_lt_of_encodeBytes_length n u hu).trans_le ?_,
    fun h => encodeBytes_length_le_of_lt n m u h hm⟩
  exact Nat.pow_le_pow_right (by decide) (by omega)

theorem encodeBytes_length_eq_iff {n L : Nat} (hu : u.toNat < 2 ^ (7 * (n + 1))) (hL : 1 ≤ L) :
    (encodeBytes (n + 1) u).length = L ↔
      u.toNat < 2 ^ (7 * L) ∧ (L = 1 ∨ ¬ u.toNat < 2 ^ (7 * (L - 1))) := by
  have hpos := encodeBytes_length_pos n u
  rw [← encodeBytes_length_le_iff hu hL]
  rcases Nat.eq_or_lt_of_le hL with rfl | hL2
  · simp; omega
  · rw [← encodeBytes_length_le_iff hu (show 1 ≤ L - 1 by omega)]
    omega

/-- A magnitude fits in `p` bits exactly when its value lies in the signed range of `p` bits. -/
theorem zzEnc_toNat_lt_iff (v : BitVec w) {p : Nat} (hp : 1 ≤ p) :
    (zzEnc v).toNat < 2 ^ p ↔
      -(2 ^ (p - 1) : Int) ≤ v.toInt ∧ v.toInt ≤ (2 ^ (p - 1) : Int) - 1 := by
  obtain ⟨q, rfl⟩ := Nat.exists_eq_add_of_le' hp
  rw [Nat.add_sub_cancel, ← Int.ofNat_lt, Nat.pow_succ]
  push_cast
  rcases le_or_gt 0 v.toInt with h | h
  · rw [zzEnc_toNat_of_nonneg h]
    omega
  · rw [zzEnc_toNat_of_neg h]
    omega

/-- An encode takes `L` bytes exactly when its value lies in the signed range of `7 L` bits and of no byte less. -/
theorem encodeBytes_zzEnc_length_eq_iff {n L : Nat} {v : BitVec w}
    (hu : (zzEnc v).toNat < 2 ^ (7 * (n + 1))) (hL : 1 ≤ L) :
    (encodeBytes (n + 1) (zzEnc v)).length = L ↔
      (-(2 ^ (7 * L - 1) : Int) ≤ v.toInt ∧ v.toInt ≤ (2 ^ (7 * L - 1) : Int) - 1 ∧
        (L = 1 ∨ ¬ (-(2 ^ (7 * (L - 1) - 1) : Int) ≤ v.toInt ∧
          v.toInt ≤ (2 ^ (7 * (L - 1) - 1) : Int) - 1))) := by
  rw [encodeBytes_length_eq_iff hu hL, zzEnc_toNat_lt_iff v (by omega), and_assoc]
  rcases Nat.eq_or_lt_of_le hL with rfl | hL2
  · simp
  · rw [zzEnc_toNat_lt_iff v (show 1 ≤ 7 * (L - 1) by omega)]

end Lengths

/-- Five groups hold every 32-bit magnitude (spec/30_encoding.md R56). -/
theorem toNat_lt_five_groups (u : BitVec 32) : u.toNat < 2 ^ (7 * 5) :=
  u.isLt.trans (by decide)

/-- Settles O19: the appended bytes are `encodeBytes` of the zigzag, whose length follows its magnitude. -/
theorem encodedLengthFollowsTheSignedRange : Obligations.EncodedLengthFollowsTheSignedRange := by
  refine ⟨fun s t v h L hL _ => ?_, fun s t v h L hL _ => ?_⟩
  · rw [exec_outlen h, Nat.add_left_cancel_iff]
    exact encodeBytes_zzEnc_length_eq_iff (toNat_lt_five_groups _) hL
  · rw [exec_outlen h, Nat.add_left_cancel_iff]
    exact encodeBytes_zzEnc_length_eq_iff (toNat_lt_ten_groups _) hL

section AcrossWidths

variable {w w' n n' : Nat} {u : BitVec w} {u' : BitVec w'}

theorem more_eq_of_toNat_eq (h : u.toNat = u'.toNat) : more u = more u' := by
  rw [Bool.eq_iff_iff, more_iff, more_iff, h]

theorem nextByte_eq_of_toNat_eq (h : u.toNat = u'.toNat) : nextByte u = nextByte u' := by
  rw [nextByte_eq_ofNat, nextByte_eq_ofNat, more_eq_of_toNat_eq h, h]

theorem encodeBytes_eq_of_not_more (h : u.toNat = u'.toNat) (hu : more u = false) :
    encodeBytes (n + 1) u = encodeBytes (n' + 1) u' := by
  rw [encodeBytes_of_not_more hu, encodeBytes_of_not_more (more_eq_of_toNat_eq h ▸ hu),
    nextByte_eq_of_toNat_eq h]

/-- Equal magnitudes have equal encodings, whatever their widths and however many passes are allowed, as long as
these are enough. -/
theorem encodeBytes_eq_of_toNat_eq (h : u.toNat = u'.toNat)
    (hn : u.toNat < 2 ^ (7 * (n + 1))) (hn' : u'.toNat < 2 ^ (7 * (n' + 1))) :
    encodeBytes (n + 1) u = encodeBytes (n' + 1) u' := by
  induction n generalizing n' u u' with
  | zero => exact encodeBytes_eq_of_not_more h (more_eq_false_of_lt hn)
  | succ n ih =>
    by_cases hu : more u = true
    · have hu' : more u' = true := more_eq_of_toNat_eq h ▸ hu
      obtain ⟨m, rfl⟩ := exists_pass_of_more hn' hu'
      have hrest : (rest u).toNat = (rest u').toNat := by rw [rest_toNat, rest_toNat, h]
      rw [encodeBytes_of_more hu, encodeBytes_of_more hu', nextByte_eq_of_toNat_eq h,
        ih hrest (rest_toNat_lt hn) (rest_toNat_lt hn')]
    · exact encodeBytes_eq_of_not_more h (Bool.eq_false_iff.2 hu)

end AcrossWidths

end Sys2Proof.Machine
end

section
/-! SUPPORT. The two codecs as one (spec/41_varint32.md R80, R82, spec/42_varint64.md R90, R92, R95): what differs between
the widths is named once, what holds of both is proved once. Then the statements about decodes. -/

namespace Sys2Proof.Machine

/-- What the codecs of the two widths differ in. -/
structure Codec (w : Nat) where
  /-- N(W), the bytes a value may take (R5). -/
  bound : Nat
  /-- The command that encodes a value. -/
  venc : BitVec w → Instr
  /-- The command that decodes at an offset. -/
  vdec : Nat → Instr
  /-- The working state that offers a byte. -/
  emitting : Request → BitVec w → Nat → Phase
  /-- The working state that asks for a byte. -/
  reading : Request → BitVec w → Nat → Phase
  /-- The response that carries a decoded value, its new offset and its count. -/
  value : BitVec w → Nat → Nat → Response

namespace Codec

variable {w : Nat} (c : Codec w)

/-- Give the response of a finished decode (R82, R92, R104). -/
def endDecode (s : State) (off : Nat) : DecodeEnd w → Host.Outcome State Fault Refusal
  | .value acc k => .next (s.respond (c.value (zzDec acc) (off + k) k))
  | .raised f => .next (s.raise f off)
  | .absent i => .fault (.inseqByteAbsent i)

/-- The decode from `acc` with `k` bytes consumed, to its response. -/
def finish (s : State) (off : Nat) (acc : BitVec w) (k : Nat) : Host.Outcome State Fault Refusal :=
  c.endDecode s off (decodeLoop s.inseq s.len off (c.bound - k) acc k)

/-- The laws that tie a `Codec` to `exec` and `step`, and what its bound must be. -/
structure Lawful : Prop where
  bound_pos : 0 < c.bound
  /-- Every group but the last lies below the width. -/
  groups_lt : 7 * c.bound ≤ w + 7
  groups_fit : 7 * c.bound ≤ 2 * w
  /-- The groups hold every magnitude. -/
  width_le : w ≤ 7 * c.bound
  exec_venc : ∀ (v : BitVec w) (s : State), exec (c.venc v) s = .next (s.encodeFrom c.bound (zzEnc v) 0)
  step_emitting : ∀ {s : State} {req : Request} {u : BitVec w} {k : Nat}, s.phase = c.emitting req u k →
    step s = .next ((s.withPhase .idle).encodeFrom c.bound u k)
  storedBytes_venc : ∀ v : BitVec w, storedBytes (c.venc v) = encodeBytes c.bound (zzEnc v)
  exec_vdec : ∀ (off : Nat) (s : State), exec (c.vdec off) s = c.finish s off 0#w 0
  step_reading : ∀ {s : State} {req : Request} {acc : BitVec w} {k : Nat},
    s.phase = c.reading req acc k → step s = c.finish (s.withPhase .idle) req.off acc k
  value_inj : ∀ {v v' : BitVec w} {o o' k k' : Nat}, c.value v o k = c.value v' o' k' →
    v = v' ∧ o = o' ∧ k = k'
  value_status : ∀ (v : BitVec w) (o k : Nat), (c.value v o k).status = .ok
  value_answers : ∀ {off k : Nat} (v : BitVec w), 1 ≤ k → k ≤ c.bound →
    (c.value v (off + k) k).answers (c.vdec off)
  fault_answers : ∀ (f : DecodeFault) (off : Nat), (Response.fault f off).answers (c.vdec off)

end Codec

/-- VENC32 and VDEC32: 32-bit working registers and the bound 5 (R80, R82). -/
def codec32 : Codec 32 := ⟨Config.maxBytes32, .venc32, .vdec32, .encode32, .decode32, .dec32⟩

/-- VENC64 and VDEC64: 64-bit working registers and the bound 10 (R90, R92). -/
def codec64 : Codec 64 := ⟨Config.maxBytes64, .venc64, .vdec64, .encode64, .decode64, .dec64⟩

theorem endDecode32_eq (s : State) (off : Nat) (e : DecodeEnd 32) :
    s.endDecode32 off e = codec32.endDecode s off e := by
  cases e <;> rfl

theorem decodeFrom32_eq_finish (s : State) (off : Nat) (acc : BitVec 32) (k : Nat) :
    s.decodeFrom32 off acc k = codec32.finish s off acc k :=
  endDecode32_eq s off _

theorem endDecode64_eq (s : State) (off : Nat) (e : DecodeEnd 64) :
    s.endDecode64 off e = codec64.endDecode s off e := by
  cases e <;> rfl

theorem decodeFrom64_eq_finish (s : State) (off : Nat) (acc : BitVec 64) (k : Nat) :
    s.decodeFrom64 off acc k = codec64.finish s off acc k :=
  endDecode64_eq s off _

theorem codec32_lawful : codec32.Lawful where
  bound_pos := by decide
  groups_lt := by decide
  groups_fit := by decide
  width_le := by decide
  exec_venc _ _ := rfl
  step_emitting {s req u k} h := by rw [step_busy (by rw [h]; nofun), State.finish, h]; rfl
  storedBytes_venc _ := rfl
  exec_vdec off s := decodeFrom32_eq_finish s off _ 0
  step_reading {s req acc k} h := by
    rw [step_busy (by rw [h]; nofun), State.finish, h]
    exact decodeFrom32_eq_finish _ _ _ _
  value_inj h := by injection h with hv ho hk; exact ⟨hv, ho, hk⟩
  value_status _ _ _ := rfl
  value_answers _ h1 h5 := ⟨h1, h5, rfl⟩
  fault_answers _ _ := rfl

theorem codec64_lawful : codec64.Lawful where
  bound_pos := by decide
  groups_lt := by decide
  groups_fit := by decide
  width_le := by decide
  exec_venc _ _ := rfl
  step_emitting {s req u k} h := by rw [step_busy (by rw [h]; nofun), State.finish, h]; rfl
  storedBytes_venc _ := rfl
  exec_vdec off s := decodeFrom64_eq_finish s off _ 0
  step_reading {s req acc k} h := by
    rw [step_busy (by rw [h]; nofun), State.finish, h]
    exact decodeFrom64_eq_finish _ _ _ _
  value_inj h := by injection h with hv ho hk; exact ⟨hv, ho, hk⟩
  value_status _ _ _ := rfl
  value_answers _ h1 h10 := ⟨h1, h10, rfl⟩
  fault_answers _ _ := rfl

theorem DecodeFault.status_ne_ok (f : DecodeFault) : f.status ≠ .ok := by
  cases f <;> nofun

/-! What the decode loop reads. -/

/-- `m` holds, below `len`, the bytes `b` of one value from `off`: `k` continuation bytes and a last one. -/
structure Memory.HoldsValue (m : Memory) (len off : Nat) (b : Nat → Byte) (k : Nat) : Prop where
  read : ∀ i ≤ k, m.read (off + i) = some (b i)
  continues : ∀ i < k, contBit (b i) = true
  stops : contBit (b k) = false
  below : off + k < len

/-- A byte with clear continuation bit stands among the first min(n, avail) bytes from `off`
(spec/60_exceptions.md R105 a). -/
def Memory.StopsWithin (m : Memory) (len off n : Nat) : Prop :=
  ∃ i b, i < min n (len - off) ∧ m.read (off + i) = some b ∧ contBit b = false

section Loop

variable {w : Nat} {m m' : Memory} {len len' off n k : Nat} {acc a : BitVec w}

/-- A value is what its bytes say. -/
theorem Memory.HoldsValue.decodeLoop_eq {b : Nat → Byte} (h : m.HoldsValue len off b k) (hk : k < n)
    (hw : 7 * n ≤ w + 7) (hw2 : 7 * n ≤ 2 * w) :
    decodeLoop m len off n (0#w) 0 = .value (BitVec.ofNat w (groupSum b (k + 1))) (k + 1) :=
  decodeLoop_value hk (by omega) (by omega) h.below h.read h.continues h.stops

/-- A decode loop that ends with a value has read its bytes. -/
theorem holdsValue_of_decodeLoop {j : Nat} (h : decodeLoop m len off n acc 0 = .value a j) :
    ∃ b k, m.HoldsValue len off b k ∧ k < n ∧ j = k + 1 := by
  rcases decodeLoop_cases m len off n acc 0 with ⟨bs, c, hlt, hcont, hstop, hlen, hread, he⟩ |
    ⟨_, -, -, -, -, -, he⟩ | ⟨_, -, -, -, -, he⟩ | ⟨_, -, -, -, he⟩
  case inr.inl | inr.inr.inl | inr.inr.inr => rw [h] at he; cases he
  rw [h, Nat.zero_add] at he
  injection he with _ hj
  refine ⟨fun i => (bs ++ [c]).getD i 0#8, bs.length,
    ⟨fun i hi => ?_, fun i hi => ?_, ?_, hlen⟩, hlt, hj⟩
  · have hlt : i < (bs ++ [c]).length := by rw [List.length_append, List.length_singleton]; omega
    have hi := hread i hi
    rw [Nat.add_zero, List.getElem?_eq_getElem hlt] at hi
    rw [hi, List.getD_eq_getElem _ _ hlt]
  · rw [List.getD_append _ _ _ _ hi, List.getD_eq_getElem _ _ hi]
    exact hcont _ (List.getElem_mem hi)
  · simpa [List.getD] using hstop

/-- A decode loop from the start that ends with a value ends with that of its bytes. -/
theorem value_eq_of_decodeLoop {j : Nat} (hw : 7 * n ≤ w + 7) (hw2 : 7 * n ≤ 2 * w)
    (h : decodeLoop m len off n (0#w) 0 = .value a j) :
    ∃ b k, m.HoldsValue len off b k ∧ k < n ∧ j = k + 1 ∧ a = BitVec.ofNat w (groupSum b j) := by
  obtain ⟨b, k, hv, hk, rfl⟩ := holdsValue_of_decodeLoop h
  have he := hv.decodeLoop_eq hk hw hw2
  rw [h] at he
  injection he with ha
  exact ⟨b, k, hv, hk, rfl, ha⟩

/-- A loop that ends with a value has met the clear continuation bit. -/
theorem stopsWithin_of_decodeLoop {j : Nat} (h : decodeLoop m len off n acc 0 = .value a j) :
    m.StopsWithin len off n := by
  obtain ⟨b, k, hv, hk, -⟩ := holdsValue_of_decodeLoop h
  have := hv.below
  exact ⟨k, b k, by omega, hv.read k le_rfl, hv.stops⟩

/-- Where a fault has its cause there is no clear continuation bit to end the value. -/
theorem DecodeFault.Cause.not_stopsWithin {f : DecodeFault} (h : f.Cause m len off n) :
    ¬ m.StopsWithin len off n := by
  rintro ⟨i, b, hi, hr, hb⟩
  have hcont : m.ContinuesAt (off + i) := by
    cases f with
    | truncated =>
      obtain ⟨k, -, hend, hall⟩ := h
      exact (hall i (by omega)).2
    | overlong => exact h.2 i (by omega)
  obtain ⟨c, hc, hcb⟩ := hcont
  rw [hr] at hc
  injection hc with hc
  rw [← hc, hb] at hcb
  cases hcb

/-- Which fault it is follows from the bytes available (spec/60_exceptions.md R105 b, c). -/
theorem DecodeFault.Cause.eq_overlong_iff {f : DecodeFault} (hn : 0 < n) (h : f.Cause m len off n) :
    f = .overlong ↔ n ≤ len - off := by
  cases f with
  | truncated =>
    obtain ⟨k, hk, hend, -⟩ := h
    simp only [reduceCtorEq, false_iff]
    omega
  | overlong =>
    have := h.1
    simp only [true_iff]
    omega

/-- The byte needed below LEN is one the storage does not hold (log 3). -/
theorem decodeLoop_absent (acc : BitVec w) (hn : 0 < n) (hlen : off + k < len)
    (hr : m.read (off + k) = none) : decodeLoop m len off n acc k = .absent (off + k) := by
  obtain ⟨n, rfl⟩ := Nat.exists_eq_succ_of_ne_zero hn.ne'
  rw [decodeLoop, if_neg (by omega), hr]

/-- The loop looks at no byte before the one it asks for. -/
theorem decodeLoop_congr (h : ∀ a, off + k ≤ a → m.read a = m'.read a) :
    decodeLoop m len off n acc k = decodeLoop m' len off n acc k := by
  induction n generalizing acc k with
  | zero => rfl
  | succ n ih =>
    rw [decodeLoop, decodeLoop, h _ le_rfl]
    have hnext (b : Byte) := ih (acc := accumulate acc b k) (k := k + 1) fun a ha => h a (by omega)
    simp only [hnext]

end Loop

/-! What a decode answers. -/

namespace Codec

section Finish

variable {w : Nat} {c : Codec w} {s t : State} {off k : Nat} {acc : BitVec w} {rsp : Response}

/-- How a decode can end, told from the loop's own end. -/
theorem endDecode_next {e : DecodeEnd w} (h : c.endDecode s off e = .next t) :
    (∃ a j, e = .value a j ∧ t = s.respond (c.value (zzDec a) (off + j) j)) ∨
      ∃ f, e = .raised f ∧ t = s.respond (.fault f off) := by
  cases e with
  | value a j => injection h with h; exact .inl ⟨a, j, rfl, h.symm⟩
  | raised f => injection h with h; exact .inr ⟨f, rfl, h.symm⟩
  | absent i => cases h

/-- The response is the end's own, whatever the state it is given in. -/
theorem endDecode_respond (s' : State) {e : DecodeEnd w}
    (h : c.endDecode s off e = .next (s.respond rsp)) :
    c.endDecode s' off e = .next (s'.respond rsp) := by
  rcases endDecode_next h with ⟨a, j, rfl, ht⟩ | ⟨f, rfl, ht⟩
  · rw [State.respond_inj ht]; rfl
  · rw [State.respond_inj ht]; rfl

/-- With every byte below LEN in the storage a decode answers, a value with its bounds or a fault. -/
theorem finish_answers (hfull : ∀ a < s.len, (s.inseq.read a).isSome = true) :
    ∃ rsp, c.finish s off acc k = .next (s.respond rsp) ∧
      ((∃ v j, rsp = c.value v (off + j) j ∧ k + 1 ≤ j ∧ j ≤ k + (c.bound - k) ∧ off + j ≤ s.len) ∨
        ∃ f, rsp = .fault f off) := by
  rw [finish]
  rcases he : decodeLoop s.inseq s.len off (c.bound - k) acc k with ⟨a, j⟩ | f | i
  · exact ⟨_, rfl, .inl ⟨zzDec a, j, rfl, decodeLoop_value_bounds he⟩⟩
  · exact ⟨_, rfl, .inr ⟨f, rfl⟩⟩
  · rcases decodeLoop_cases s.inseq s.len off (c.bound - k) acc k with ⟨_, _, -, -, -, -, -, hc⟩ |
      ⟨_, -, -, -, -, -, hc⟩ | ⟨_, -, -, -, -, hc⟩ | ⟨i, -, hi, hr, -⟩
    case inl | inr.inl | inr.inr.inl => rw [he] at hc; cases hc
    have := hfull i hi
    rw [hr] at this
    cases this

end Finish

section Exec

variable {w : Nat} {c : Codec w} (hc : c.Lawful) {s t : State} {off : Nat}
include hc

/-- A decode that answered a value: its loop ended with it. -/
theorem decodeLoop_of_exec_value {v : BitVec w} {o cnt : Nat}
    (h : exec (c.vdec off) s = .next t) (hr : t.responses = s.responses ++ [c.value v o cnt]) :
    ∃ a, decodeLoop s.inseq s.len off c.bound 0#w 0 = .value a cnt ∧ v = zzDec a ∧
      t = s.respond (c.value (zzDec a) (off + cnt) cnt) := by
  rw [hc.exec_vdec] at h
  rcases endDecode_next h with ⟨a, j, he, rfl⟩ | ⟨f, -, rfl⟩
  · obtain ⟨rfl, -, rfl⟩ := hc.value_inj (State.eq_of_respond_responses hr)
    exact ⟨a, he, rfl, rfl⟩
  · have := congrArg Response.status (State.eq_of_respond_responses hr)
    rw [hc.value_status] at this
    exact absurd this.symm f.status_ne_ok

/-- A decode in whose input a value stands answers it. -/
theorem exec_of_decodeLoop_value {a : BitVec w} {j : Nat}
    (h : decodeLoop s.inseq s.len off c.bound 0#w 0 = .value a j) :
    exec (c.vdec off) s = .next (s.respond (c.value (zzDec a) (off + j) j)) := by
  rw [hc.exec_vdec, finish, Nat.sub_zero, h]
  rfl

theorem exec_of_decodeLoop_raised {f : DecodeFault}
    (h : decodeLoop s.inseq s.len off c.bound 0#w 0 = .raised f) :
    exec (c.vdec off) s = .next (s.respond (.fault f off)) := by
  rw [hc.exec_vdec, finish, Nat.sub_zero, h]
  rfl

theorem exec_answers (off : Nat) (hfull : ∀ a < s.len, (s.inseq.read a).isSome = true) :
    ∃ rsp, exec (c.vdec off) s = .next (s.respond rsp) ∧
      ((∃ v cnt, rsp = c.value v (off + cnt) cnt ∧ 1 ≤ cnt ∧ cnt ≤ c.bound ∧ off + cnt ≤ s.len) ∨
        ∃ f, rsp = .fault f off) := by
  simpa [hc.exec_vdec] using finish_answers (c := c) (off := off) (acc := 0#w) (k := 0) hfull

/-- The order of the checks (spec/60_exceptions.md R105). -/
theorem exec_status {rsp : Response} (h : exec (c.vdec off) s = .next t)
    (hr : t.responses = s.responses ++ [rsp]) :
    (s.inseq.StopsWithin s.len off c.bound → rsp.status = .ok) ∧
      (¬ s.inseq.StopsWithin s.len off c.bound →
        (c.bound ≤ s.len - off → rsp.status = .overlong) ∧
        (s.len - off < c.bound → rsp.status = .truncated)) := by
  rw [hc.exec_vdec] at h
  rcases endDecode_next h with ⟨a, j, he, rfl⟩ | ⟨f, he, rfl⟩
  · rw [State.eq_of_respond_responses hr]
    exact ⟨fun _ => hc.value_status _ _ _, fun hno => absurd (stopsWithin_of_decodeLoop he) hno⟩
  · have hcause := decodeLoop_raised_cause hc.bound_pos he
    have hwhich := hcause.eq_overlong_iff hc.bound_pos
    rw [State.eq_of_respond_responses hr]
    refine ⟨fun hstop => absurd hstop hcause.not_stopsWithin, fun _ => ⟨fun hav => ?_, fun hav => ?_⟩⟩
    · rw [hwhich.2 hav]; rfl
    · cases f with
      | truncated => rfl
      | overlong => exact absurd (hwhich.1 rfl) (not_le.2 hav)

/-- A value depends on its own bytes alone. -/
theorem exec_value_of_same_bytes {v : BitVec w} {o cnt len : Nat} {m : Memory}
    (h : exec (c.vdec off) s = .next t) (hr : t.responses = s.responses ++ [c.value v o cnt])
    (hm : ∀ i < cnt, m.read (off + i) = s.inseq.read (off + i)) (hlen : off + cnt ≤ len) :
    exec (c.vdec off) (s.withInput m len) = .next (t.withInput m len) := by
  obtain ⟨a, he, -, rfl⟩ := decodeLoop_of_exec_value hc h hr
  obtain ⟨b, k, hv, hk, rfl, rfl⟩ := value_eq_of_decodeLoop hc.groups_lt hc.groups_fit he
  have hv' : m.HoldsValue len off b k :=
    ⟨fun i hi => (hm i (by omega)).trans (hv.read i hi), hv.continues, hv.stops, by omega⟩
  exact exec_of_decodeLoop_value (s := s.withInput m len) hc
    (hv'.decodeLoop_eq hk hc.groups_lt hc.groups_fit)

/-- A byte the storage lacks below LEN stops the model (log 3). -/
theorem exec_absent {b : Nat → Byte} {k : Nat} (hk : k < c.bound) (hlen : off + k < s.len)
    (h : ∀ i < k, s.inseq.read (off + i) = some (b i) ∧ contBit (b i) = true)
    (hr : s.inseq.read (off + k) = none) :
    exec (c.vdec off) s = .fault (.inseqByteAbsent (off + k)) := by
  rw [hc.exec_vdec, finish, Nat.sub_zero, decodeLoop_continue hk.le fun i hi => ⟨by omega, h i hi⟩,
    decodeLoop_absent _ (by omega) hlen hr]
  rfl

end Exec

end Codec

/-- Settles O24: with every byte below LEN there, the loop ends with a value or a fault. -/
theorem everyDecodeAnswers : Obligations.EveryDecodeAnswers := fun _ off hinv =>
  ⟨Codec.exec_answers codec32_lawful off hinv.inseq_full,
    Codec.exec_answers codec64_lawful off hinv.inseq_full⟩

/-- Settles O25: a value has met a clear continuation bit, and each fault has R105's cause. -/
theorem faultFollowsTheOrderOfTheChecks : Obligations.FaultFollowsTheOrderOfTheChecks :=
  fun _ _ _ => ⟨fun _ _ => Codec.exec_status codec32_lawful,
    fun _ _ => Codec.exec_status codec64_lawful⟩

/-- Settles O26: the bytes of the value, laid out below the new LEN, hold the same value. -/
theorem decodeDependsOnConsumedBytesOnly : Obligations.DecodeDependsOnConsumedBytesOnly :=
  ⟨fun _ _ _ _ _ _ _ _ => Codec.exec_value_of_same_bytes codec32_lawful,
    fun _ _ _ _ _ _ _ _ => Codec.exec_value_of_same_bytes codec64_lawful⟩

/-- Settles O27: after its continuation bytes the loop asks for the byte that is not there. -/
theorem missingInputByteStopsTheModel : Obligations.MissingInputByteStopsTheModel := fun _ _ _ =>
  ⟨fun _ => Codec.exec_absent codec32_lawful, fun _ => Codec.exec_absent codec64_lawful⟩

/-! A command's response is a function of INSEQ and LEN. -/

/-- What a command answers in one state it answers in every state with the same INSEQ and LEN. -/
theorem exec_next_of_input_eq {i : Instr} {s s' : State} {rsp : Response} (hm : s.inseq = s'.inseq)
    (hl : s.len = s'.len) (h : exec i s = .next ((s.appendAll (storedBytes i)).respond rsp)) :
    exec i s' = .next ((s'.appendAll (storedBytes i)).respond rsp) := by
  cases i with
  | vdec32 off =>
    rw [show Instr.vdec32 off = codec32.vdec off from rfl, codec32_lawful.exec_vdec] at h ⊢
    rw [Codec.finish, ← hm, ← hl]
    exact Codec.endDecode_respond s' h
  | vdec64 off =>
    rw [show Instr.vdec64 off = codec64.vdec off from rfl, codec64_lawful.exec_vdec] at h ⊢
    rw [Codec.finish, ← hm, ← hl]
    exact Codec.endDecode_respond s' h
  | _ =>
    injection h with h
    obtain rfl := State.respond_inj h
    rfl

/-- Settles O29: the bytes are the command's own, the response that of its INSEQ and LEN. -/
theorem commandsDependOnNoHistory : Obligations.CommandsDependOnNoHistory := by
  intro i s s' t t' hm hl h h'
  have hread : ∀ j < (storedBytes i).length,
      t.outbuf.read (s.outlen + j) = t'.outbuf.read (s'.outlen + j) := fun j hj =>
    (exec_read_stored h hj).trans (exec_read_stored h' hj).symm
  have hlen := exec_outlen h
  have hlen' := exec_outlen h'
  obtain ⟨rsp, rfl, -⟩ := exec_next h
  have ht' := exec_next_of_input_eq hm hl h
  rw [h'] at ht'
  injection ht' with ht'
  exact ⟨rsp, (storedBytes i).length, by simp, by simp [ht'], hlen, hlen', hread⟩

end Sys2Proof.Machine
end

section
/-! SUPPORT. Encode against decode (spec/30_encoding.md section 2, spec/41_varint32.md section 3, spec/42_varint64.md
section 3): the bytes of an encoding as numbers, what a decode at either width makes of them, and which bytes
encode again to themselves. -/

namespace Sys2Proof.Machine

/-! Bytes and digits. -/

/-- A byte is its continuation bit and its group (spec/30_encoding.md R53). -/
theorem encodedByte_contBit_group (b : Byte) : encodedByte (contBit b) (group b) = b := by
  apply BitVec.eq_of_getLsbD_eq
  intro i hi
  rw [encodedByte, BitVec.getLsbD_append]
  by_cases h : i < 7
  · simp [h, group]
  · obtain rfl : i = 7 := by omega
    simp [contBit]

/-- Byte `i` of the encoding of `u` in `L` bytes. -/
def encodedAt (u L i : Nat) : Byte :=
  encodedByte (decide (i + 1 < L)) (BitVec.ofNat 7 (u / 2 ^ (7 * i)))

@[simp] theorem contBit_encodedAt (u L i : Nat) : contBit (encodedAt u L i) = decide (i + 1 < L) :=
  contBit_encodedByte _ _

theorem encodedAt_toNat_mod (u L i : Nat) :
    (encodedAt u L i).toNat % 128 = u / 2 ^ (7 * i) % 2 ^ 7 := by
  rw [← group_toNat, encodedAt, group_encodedByte, BitVec.toNat_ofNat]

theorem encodeBytes_getElem?_eq_encodedAt {w n : Nat} {u : BitVec w} (h : u.toNat < 2 ^ (7 * n))
    {i : Nat} (hi : i < (encodeBytes n u).length) :
    (encodeBytes n u)[i]? = some (encodedAt u.toNat (encodeBytes n u).length i) := by
  rw [encodeBytes_getElem? n u h i hi, encodedAt, encodedByte_eq_ofNat, BitVec.toNat_ofNat]
  simp

/-- Digits taken from a number write its low part. -/
theorem groupSum_eq_mod {b : Nat → Byte} {u k : Nat}
    (h : ∀ i < k, (b i).toNat % 128 = u / 2 ^ (7 * i) % 2 ^ 7) : groupSum b k = u % 2 ^ (7 * k) := by
  induction k with
  | zero => simp [groupSum, Nat.mod_one]
  | succ k ih =>
    rw [groupSum_succ, ih fun i hi => h i (by omega), h k k.lt_succ_self, Nat.mul_succ, Nat.pow_add,
      Nat.mod_mul, Nat.mul_comm (2 ^ (7 * k))]

/-- A number has the digits that write it. -/
theorem groupSum_digit (b : Nat → Byte) {i k : Nat} (hi : i < k) :
    groupSum b k / 2 ^ (7 * i) % 2 ^ 7 = (b i).toNat % 128 := by
  induction k with
  | zero => omega
  | succ k ih =>
    have hP : 0 < 2 ^ (7 * i) := by positivity
    rw [groupSum_succ]
    rcases Nat.lt_succ_iff_lt_or_eq.1 hi with hlt | rfl
    · obtain ⟨j, rfl⟩ := Nat.exists_eq_add_of_lt hlt
      have hpow : 2 ^ (7 * (i + j + 1)) = 2 ^ (7 * i) * (2 ^ 7 * 2 ^ (7 * j)) := by
        rw [← Nat.pow_add, ← Nat.pow_add]; congr 1; omega
      rw [hpow, Nat.mul_left_comm, Nat.add_mul_div_left _ _ hP, Nat.mul_left_comm,
        Nat.add_mul_mod_self_left, ih hlt]
    · rw [Nat.add_mul_div_right _ _ hP, Nat.div_eq_of_lt (groupSum_lt b i), Nat.zero_add]
      exact Nat.mod_mod _ _

/-! What a decode makes of an encoding. -/

/-- `m` holds the bytes `bs` from `off`. -/
def Memory.Holds (m : Memory) (off : Nat) (bs : List Byte) : Prop :=
  ∀ j < bs.length, m.read (off + j) = bs[j]?

theorem Memory.holds_append {m : Memory} {off : Nat} {bs cs : List Byte}
    (h : m.Holds off (bs ++ cs)) : m.Holds off bs ∧ m.Holds (off + bs.length) cs := by
  refine ⟨fun j hj => ?_, fun j hj => ?_⟩
  · rw [h j (by rw [List.length_append]; omega), List.getElem?_append_left hj]
  · rw [Nat.add_assoc, h _ (by rw [List.length_append]; omega), List.getElem?_append_right (by omega),
      Nat.add_sub_cancel_left]

section DecodeOfEncoding

variable {w w' n : Nat} {u : BitVec w'} {m : Memory} {len off todo : Nat}
  (hu : u.toNat < 2 ^ (7 * n)) (hm : m.Holds off (encodeBytes n u))
  (hlen : off + (encodeBytes n u).length ≤ len)
include hu hm

theorem read_of_holds_encodeBytes {i : Nat} (hi : i < (encodeBytes n u).length) :
    m.read (off + i) = some (encodedAt u.toNat (encodeBytes n u).length i) :=
  (hm i hi).trans (encodeBytes_getElem?_eq_encodedAt hu hi)

include hlen

/-- A loop that may read them all gives the magnitude, cut to its own width. -/
theorem decodeLoop_of_holds_encodeBytes (hn : 1 ≤ n) (hfew : (encodeBytes n u).length ≤ todo)
    (hw : 7 * todo ≤ w + 7) (hw2 : 7 * todo ≤ 2 * w) :
    decodeLoop m len off todo (0#w) 0 =
      .value (BitVec.ofNat w u.toNat) (encodeBytes n u).length := by
  obtain ⟨n, rfl⟩ := Nat.exists_eq_add_of_le' hn
  obtain ⟨k, hk⟩ := Nat.exists_eq_add_of_le' (encodeBytes_length_pos n u)
  have hread {i : Nat} (hi : i < k + 1) := read_of_holds_encodeBytes hu hm (hk ▸ hi)
  have hsum := groupSum_eq_mod (k := k + 1) fun i _ => encodedAt_toNat_mod u.toNat (k + 1) i
  have hbound := toNat_lt_of_encodeBytes_length (n + 1) u hu
  rw [hk] at hread hbound hlen hfew ⊢
  have hv : m.HoldsValue len off (encodedAt u.toNat (k + 1)) k :=
    ⟨fun i hi => hread (by omega), fun i hi => by simp [hi], by simp, by omega⟩
  rw [hv.decodeLoop_eq hfew hw hw2, hsum, Nat.mod_eq_of_lt hbound]

/-- A loop that may read only some of them finds the value overlong. -/
theorem decodeLoop_of_holds_longer_encodeBytes (hmany : todo < (encodeBytes n u).length) :
    decodeLoop m len off todo (0#w) 0 = .raised .overlong := by
  have hcont : ∀ i < todo, off + i < len ∧
      m.read (off + i) = some (encodedAt u.toNat (encodeBytes n u).length i) ∧
      contBit (encodedAt u.toNat (encodeBytes n u).length i) = true := fun i hi =>
    ⟨by omega, read_of_holds_encodeBytes hu hm (by omega), by simp; omega⟩
  rw [decodeLoop_continue le_rfl hcont, Nat.sub_self]
  rfl

end DecodeOfEncoding

/-- What an encode appended, read from elsewhere. -/
theorem Memory.holds_storedBytes {i : Instr} {s t : State} {m : Memory} {off cnt : Nat}
    (h : exec i s = .next t) (hcnt : t.outlen = s.outlen + cnt)
    (hm : ∀ j < cnt, m.read (off + j) = t.outbuf.read (s.outlen + j)) :
    cnt = (storedBytes i).length ∧ m.Holds off (storedBytes i) := by
  have hlen : cnt = (storedBytes i).length := Nat.add_left_cancel (hcnt.symm.trans (exec_outlen h))
  subst hlen
  exact ⟨rfl, fun j hj => (hm j hj).trans (exec_read_stored h hj)⟩

/-! Which bytes encode again to themselves. -/

section Reencode

variable {w n : Nat} {m : Memory} {len off k : Nat} {b : Nat → Byte}

/-- No bytes of a value are fewer than its encoding. -/
theorem encodeBytes_groupSum_length_le (hk : 1 ≤ k) :
    (encodeBytes n (BitVec.ofNat w (groupSum b k))).length ≤ k := by
  refine encodeBytes_length_le_of_lt n k _ ?_ hk
  rw [BitVec.toNat_ofNat]
  exact (Nat.mod_le _ _).trans_lt (groupSum_lt b k)

/-- Without excess bits in the last byte allowed the magnitude fits the width. -/
theorem groupSum_lt_two_pow (hk : k < n) (hw : 7 * n ≤ w + 7) (hwn : w ≤ 7 * n)
    (hexcess : k + 1 = n → (b k).toNat < 2 ^ (w - 7 * (n - 1))) : groupSum b (k + 1) < 2 ^ w := by
  by_cases hlast : k + 1 = n
  · have hb : (b k).toNat % 128 + 1 ≤ 2 ^ (w - 7 * k) := by
      have := hexcess hlast
      rw [show n - 1 = k by omega] at this
      have := Nat.mod_le (b k).toNat 128
      omega
    have hlow := groupSum_lt b k
    have hmul := Nat.mul_le_mul_right (2 ^ (7 * k)) hb
    rw [← Nat.pow_add, Nat.sub_add_cancel (by omega), Nat.add_mul, Nat.one_mul] at hmul
    rw [groupSum_succ]
    omega
  · exact (groupSum_lt b _).trans_le (Nat.pow_le_pow_right (by decide) (by omega))

/-- The shortest bytes of a value, without excess bits, are its encoding. -/
theorem Memory.HoldsValue.encodeBytes_getElem? (h : m.HoldsValue len off b k) (hk : k < n)
    (hw : 7 * n ≤ w + 7) (hwn : w ≤ 7 * n) (hshort : k = 0 ∨ b k ≠ 0#8)
    (hexcess : k + 1 = n → (b k).toNat < 2 ^ (w - 7 * (n - 1))) :
    (encodeBytes n (BitVec.ofNat w (groupSum b (k + 1)))).length = k + 1 ∧
      ∀ j < k + 1, (encodeBytes n (BitVec.ofNat w (groupSum b (k + 1))))[j]? = some (b j) := by
  obtain ⟨n, rfl⟩ := Nat.exists_eq_add_of_le' (Nat.one_le_of_lt hk)
  have hacc : (BitVec.ofNat w (groupSum b (k + 1))).toNat = groupSum b (k + 1) := by
    rw [BitVec.toNat_ofNat, Nat.mod_eq_of_lt (groupSum_lt_two_pow hk hw hwn hexcess)]
  have hfit : (BitVec.ofNat w (groupSum b (k + 1))).toNat < 2 ^ (7 * (n + 1)) :=
    (BitVec.isLt _).trans_le (Nat.pow_le_pow_right (by decide) hwn)
  have hstop : (b k).toNat < 128 := by
    have := h.stops
    rw [contBit, ← BitVec.msb_eq_getLsbD_last, BitVec.msb_eq_false_iff_two_mul_lt] at this
    omega
  have hleast : k + 1 = 1 ∨ ¬ groupSum b (k + 1) < 2 ^ (7 * (k + 1 - 1)) := by
    rcases hshort with rfl | hne
    · exact .inl rfl
    · have hpos : 1 ≤ (b k).toNat % 128 := by
        have : (b k).toNat ≠ 0 := fun h0 => hne (BitVec.eq_of_toNat_eq h0)
        omega
      have := Nat.mul_le_mul_right (2 ^ (7 * k)) hpos
      rw [Nat.add_sub_cancel, groupSum_succ]
      omega
  have hlen : (encodeBytes (n + 1) (BitVec.ofNat w (groupSum b (k + 1)))).length = k + 1 :=
    (encodeBytes_length_eq_iff hfit (by omega)).2 (hacc.symm ▸ ⟨groupSum_lt b _, hleast⟩)
  refine ⟨hlen, fun j hj => ?_⟩
  rw [encodeBytes_getElem?_eq_encodedAt hfit (hj.trans_eq hlen.symm), hacc, hlen,
    ← encodedByte_contBit_group (b j), encodedAt]
  congr 2
  · rcases Nat.lt_succ_iff_lt_or_eq.1 hj with hlt | rfl
    · simpa [h.continues j hlt] using hlt
    · simp [h.stops]
  · apply BitVec.eq_of_toNat_eq
    rw [BitVec.toNat_ofNat, groupSum_digit b hj, group_toNat]

end Reencode

namespace Codec

section RoundTrip

variable {w : Nat} {c : Codec w} (hc : c.Lawful)
include hc

theorem Lawful.toNat_lt (u : BitVec w) : u.toNat < 2 ^ (7 * c.bound) :=
  u.isLt.trans_le (Nat.pow_le_pow_right (by decide) hc.width_le)

variable {s t s' t' : State} {off : Nat}

/-- A decode whose input holds an encoding of at most N(W) bytes answers the value of its magnitude. -/
theorem exec_vdec_of_holds_encodeBytes {w' n : Nat} {u : BitVec w'} (hn : 1 ≤ n)
    (hu : u.toNat < 2 ^ (7 * n)) (hm : s.inseq.Holds off (encodeBytes n u))
    (hlen : off + (encodeBytes n u).length ≤ s.len) (hfew : (encodeBytes n u).length ≤ c.bound) :
    exec (c.vdec off) s = .next (s.respond (c.value (zzDec (BitVec.ofNat w u.toNat))
      (off + (encodeBytes n u).length) (encodeBytes n u).length)) :=
  exec_of_decodeLoop_value hc
    (decodeLoop_of_holds_encodeBytes hu hm hlen hn hfew hc.groups_lt hc.groups_fit)

/-- A decode whose input holds the encoding of a value of its width answers the value. -/
theorem exec_vdec_of_holds_zzEnc {v : BitVec w} (hm : s.inseq.Holds off (storedBytes (c.venc v)))
    (hlen : off + (storedBytes (c.venc v)).length ≤ s.len) :
    exec (c.vdec off) s = .next (s.respond (c.value v
      (off + (storedBytes (c.venc v)).length) (storedBytes (c.venc v)).length)) := by
  rw [hc.storedBytes_venc] at hm hlen ⊢
  rw [exec_vdec_of_holds_encodeBytes hc hc.bound_pos (hc.toNat_lt _) hm hlen
    (encodeBytes_length_le _ _), BitVec.ofNat_toNat, BitVec.setWidth_eq, zzDec_zzEnc]

/-- The round trip of one value. -/
theorem exec_vdec_of_exec_venc {v : BitVec w} {cnt : Nat} (h : exec (c.venc v) s = .next t)
    (hcnt : t.outlen = s.outlen + cnt)
    (hm : ∀ j < cnt, s'.inseq.read (off + j) = t.outbuf.read (s.outlen + j))
    (hlen : off + cnt ≤ s'.len) :
    exec (c.vdec off) s' = .next (s'.respond (c.value v (off + cnt) cnt)) := by
  obtain ⟨rfl, hholds⟩ := Memory.holds_storedBytes h hcnt hm
  exact exec_vdec_of_holds_zzEnc hc hholds hlen

/-- The bytes of a decoded value, and what encoding it again appends. -/
theorem exists_bytes_of_exec_vdec {v : BitVec w} {o cnt : Nat} (h : exec (c.vdec off) s = .next s')
    (hr : s'.responses = s.responses ++ [c.value v o cnt]) :
    ∃ b k, s.inseq.HoldsValue s.len off b k ∧ k < c.bound ∧ cnt = k + 1 ∧
      storedBytes (c.venc v) = encodeBytes c.bound (BitVec.ofNat w (groupSum b (k + 1))) := by
  obtain ⟨a, he, rfl, -⟩ := decodeLoop_of_exec_value hc h hr
  obtain ⟨b, k, hv, hk, rfl, rfl⟩ := value_eq_of_decodeLoop hc.groups_lt hc.groups_fit he
  exact ⟨b, k, hv, hk, rfl, by rw [hc.storedBytes_venc, zzEnc_zzDec]⟩

theorem venc_outlen_le {v : BitVec w} {o cnt : Nat} (h : exec (c.vdec off) s = .next s')
    (hr : s'.responses = s.responses ++ [c.value v o cnt]) (h' : exec (c.venc v) t = .next t') :
    t'.outlen ≤ t.outlen + cnt := by
  obtain ⟨b, k, -, -, rfl, hb⟩ := exists_bytes_of_exec_vdec hc h hr
  rw [exec_outlen h', hb]
  exact Nat.add_le_add_left (encodeBytes_groupSum_length_le (by omega)) _

theorem venc_appends_canonical_bytes {v : BitVec w} {o cnt : Nat} {b : Byte}
    (h : exec (c.vdec off) s = .next s') (hr : s'.responses = s.responses ++ [c.value v o cnt])
    (hb : s.inseq.read (off + cnt - 1) = some b) (hshort : cnt = 1 ∨ b ≠ 0#8)
    (hexcess : cnt = c.bound → b.toNat < 2 ^ (w - 7 * (c.bound - 1)))
    (h' : exec (c.venc v) t = .next t') :
    t'.outlen = t.outlen + cnt ∧
      ∀ j < cnt, t'.outbuf.read (t.outlen + j) = s.inseq.read (off + j) := by
  obtain ⟨bs, k, hv, hk, rfl, hstored⟩ := exists_bytes_of_exec_vdec hc h hr
  obtain rfl : b = bs k := by
    rw [Nat.add_succ_sub_one, hv.read k le_rfl] at hb
    exact (Option.some.inj hb).symm
  obtain ⟨hlen, hbytes⟩ := hv.encodeBytes_getElem? hk hc.groups_lt hc.width_le
    (hshort.imp_left Nat.succ.inj) hexcess
  rw [← hstored] at hlen hbytes
  refine ⟨by rw [exec_outlen h', hlen], fun j hj => ?_⟩
  rw [exec_read_stored h' (hlen ▸ hj), hbytes j hj, hv.read j (by omega)]

end RoundTrip

end Codec

/-- Settles O31: at width 32 the decode loop reads back the magnitude, whose zigzag decode is the value. -/
theorem vdec32ReadsBackWhatVenc32Appended : Obligations.Vdec32ReadsBackWhatVenc32Appended :=
  fun _ _ _ _ _ _ => Codec.exec_vdec_of_exec_venc codec32_lawful

/-- Settles O32: the same at width 64. -/
theorem vdec64ReadsBackWhatVenc64Appended : Obligations.Vdec64ReadsBackWhatVenc64Appended :=
  fun _ _ _ _ _ _ => Codec.exec_vdec_of_exec_venc codec64_lawful

/-- Settles O20: the value's magnitude is written by the groups consumed, so no more bytes encode it. -/
theorem noAcceptedEncodingIsShorter : Obligations.NoAcceptedEncodingIsShorter :=
  ⟨fun _ _ _ _ _ _ _ _ => Codec.venc_outlen_le codec32_lawful,
    fun _ _ _ _ _ _ _ _ => Codec.venc_outlen_le codec64_lawful⟩

/-- Settles O21: canonical bytes have the length and the groups of the encoding of their value. -/
theorem canonicalBytesReencodeToThemselves : Obligations.CanonicalBytesReencodeToThemselves :=
  ⟨fun _ _ _ _ _ _ _ _ _ => Codec.venc_appends_canonical_bytes codec32_lawful,
    fun _ _ _ _ _ _ _ _ _ => Codec.venc_appends_canonical_bytes codec64_lawful⟩

/-! The two widths. -/

/-- A 32-bit value and its sign extension have the same magnitude (spec/42_varint64.md section 3). -/
theorem zzEnc_signExtend_toNat (v : BitVec 32) :
    (zzEnc (v.signExtend 64)).toNat = (zzEnc v).toNat := by
  have hint : (v.signExtend 64).toInt = v.toInt := BitVec.toInt_signExtend_of_le (by decide)
  rcases le_or_gt 0 v.toInt with h | h
  · have h64 := zzEnc_toNat_of_nonneg (hint.symm ▸ h)
    have h32 := zzEnc_toNat_of_nonneg h
    omega
  · have h64 := zzEnc_toNat_of_neg (hint.symm ▸ h)
    have h32 := zzEnc_toNat_of_neg h
    omega

theorem storedBytes_venc64_signExtend (v : BitVec 32) :
    storedBytes (.venc64 (v.signExtend 64)) = storedBytes (.venc32 v) :=
  encodeBytes_eq_of_toNat_eq (zzEnc_signExtend_toNat v) (codec64_lawful.toNat_lt _)
    (codec32_lawful.toNat_lt _)

/-- Settles O34: (a) and (b) since a value and its sign extension have one encoding, (c) since the 32-bit loop
cuts the magnitude to its width, or stops at its fifth byte. -/
theorem widthsAgreeWhereTheValueFits : Obligations.WidthsAgreeWhereTheValueFits := by
  refine ⟨fun s t t' v h h' => ?same, fun s t s' v off cnt h hcnt hm hlen => ?extend,
    fun s t s' v off cnt h hcnt hm hlen => ⟨fun hfew => ?few, fun hmany => ?many⟩⟩
  case same =>
    have hbytes : encodeBytes Config.maxBytes64 (zzEnc (v.signExtend 64)) =
        encodeBytes Config.maxBytes32 (zzEnc v) := storedBytes_venc64_signExtend v
    injection h with h
    injection h' with h'
    rw [← h, ← h', State.encodeFrom_eq, State.encodeFrom_eq, hbytes]
  case extend =>
    obtain ⟨rfl, hholds⟩ := Memory.holds_storedBytes h hcnt hm
    rw [← storedBytes_venc64_signExtend] at hholds hlen ⊢
    exact Codec.exec_vdec_of_holds_zzEnc codec64_lawful hholds hlen
  case few =>
    obtain ⟨rfl, hholds⟩ := Memory.holds_storedBytes h hcnt hm
    have := Codec.exec_vdec_of_holds_encodeBytes codec32_lawful (by decide)
      (codec64_lawful.toNat_lt (zzEnc v)) hholds hlen hfew
    rwa [BitVec.ofNat_toNat] at this
  case many =>
    obtain ⟨rfl, hholds⟩ := Memory.holds_storedBytes h hcnt hm
    exact Codec.exec_of_decodeLoop_raised codec32_lawful
      (decodeLoop_of_holds_longer_encodeBytes (codec64_lawful.toNat_lt (zzEnc v)) hholds hlen hmany)

end Sys2Proof.Machine
end

section
/-! SUPPORT. Commands one after another (spec/10_state.md R18, spec/70_reset_and_hazards.md R132): what a list of them
leaves, a run of the machine over the commands offered, and the cursor discipline. -/

namespace Sys2Proof.Machine

theorem State.withRequests_self {s : State} {rs : List Request} (h : s.requests = rs) :
    s.withRequests rs = s := by
  subst h; rfl

/-- The responses `rsps` are given and taken, in order. -/
def State.respondAll (s : State) (rsps : List Response) : State :=
  { s with responses := s.responses ++ rsps }

theorem State.respondAll_nil (s : State) : s.respondAll [] = s := by
  simp [respondAll]

theorem State.respondAll_respond (s : State) (r : Response) (rsps : List Response) :
    (s.respond r).respondAll rsps = s.respondAll (r :: rsps) := by
  simp [respondAll, respond]

/-- Appending does not touch the responses. -/
theorem State.appendAll_respond (s : State) (r : Response) (bs : List Byte) :
    (s.respond r).appendAll bs = (s.appendAll bs).respond r := by
  induction bs generalizing s with
  | nil => rfl
  | cons b bs ih => exact ih (s.append b)

/-- Appending does not touch the commands to offer. -/
theorem State.appendAll_withRequests (s : State) (rs : List Request) (bs : List Byte) :
    (s.withRequests rs).appendAll bs = (s.appendAll bs).withRequests rs := by
  induction bs generalizing s with
  | nil => rfl
  | cons b bs ih => exact ih (s.append b)

/-- What a command left, and then what more of them left, put together. -/
theorem State.appendAll_respondAll_cons (s : State) (r : Response) (bs cs : List Byte)
    (rsps : List Response) :
    (((s.appendAll bs).respond r).appendAll cs).respondAll rsps =
      (s.appendAll (bs ++ cs)).respondAll (r :: rsps) := by
  rw [appendAll_respond, respondAll_respond, appendAll_append]

/-- With every byte below LEN in the storage every command answers. -/
theorem exec_total (i : Instr) {s : State} (hfull : ∀ a < s.len, (s.inseq.read a).isSome = true) :
    ∃ t, exec i s = .next t := by
  cases i with
  | vdec32 off =>
    obtain ⟨_, h, -⟩ := Codec.exec_answers codec32_lawful off hfull
    exact ⟨_, h⟩
  | vdec64 off =>
    obtain ⟨_, h, -⟩ := Codec.exec_answers codec64_lawful off hfull
    exact ⟨_, h⟩
  | _ => exact ⟨_, rfl⟩

/-! A run over the commands offered. -/

theorem run_succ {s t : State} (n : Nat) (h : step s = .next t) :
    Host.Core.run Sys2Proof.core (n + 1) s = Host.Core.run Sys2Proof.core n t := by
  have hstep : Sys2Proof.core.step s = .next t := h
  simp only [Host.Core.run, hstep]

/-- What the run over the commands `rs` leaves, with their responses `rsps`. -/
def State.afterRun (s : State) (rs : List Request) (rsps : List Response) : State :=
  ((s.appendAll (rs.flatMap fun r => storedBytes (decode r))).respondAll rsps).withRequests []

/-- As many steps as there are commands perform them all. -/
theorem run_requests (rs : List Request) {s : State} (hp : s.phase = .idle) (hr : s.requests = rs)
    (hfull : ∀ a < s.len, (s.inseq.read a).isSome = true) :
    ∃ rsps, List.Forall₂ (fun r rsp => Response.answers (decode r) rsp) rs rsps ∧
      Host.Core.run Sys2Proof.core rs.length s = .next (s.afterRun rs rsps) := by
  induction rs generalizing s with
  | nil =>
    refine ⟨[], .nil, congrArg Host.Outcome.next ?_⟩
    rw [State.afterRun, List.flatMap_nil, State.appendAll_nil, State.respondAll_nil,
      State.withRequests_self hr]
  | cons r rs ih =>
    obtain ⟨t, ht⟩ := exec_total (decode r) (s := s.withRequests rs) hfull
    obtain ⟨rsp, rfl, hrsp⟩ := exec_next ht
    have hstep := (step_idle_cons hp hr).trans ht
    rw [State.appendAll_withRequests] at hstep
    obtain ⟨rsps, hall, hrun⟩ :=
      ih (s := ((s.appendAll (storedBytes (decode r))).respond rsp).withRequests rs)
        (by simpa using hp) rfl (by simpa using hfull)
    refine ⟨rsp :: rsps, .cons hrsp hall, (run_succ rs.length hstep).trans (hrun.trans ?_)⟩
    rw [State.afterRun, State.appendAll_withRequests, State.afterRun, List.flatMap_cons,
      ← State.appendAll_respondAll_cons]
    rfl

/-- Settles O10: by induction on the commands offered, each step taking one off and appending its bytes. -/
theorem runPerformsEveryCommandInOrder : Obligations.RunPerformsEveryCommandInOrder := by
  intro s hinv hp
  obtain ⟨rsps, hall, hrun⟩ := run_requests s.requests hp rfl hinv.inseq_full
  have hread (a : Nat) := s.appendAll_read (s.requests.flatMap fun r => storedBytes (decode r)) a
  refine ⟨_, rsps, hrun, ?_, rfl, ?_, hall, ?_, fun j hj => ?_, fun a ha => ?_, ?_, ?_, ?_⟩
  · exact (s.appendAll_phase _).trans hp
  · exact congrArg (· ++ rsps) (s.appendAll_responses _)
  · exact s.appendAll_outlen _
  · exact (hread _).trans (by rw [if_pos (by omega), Nat.add_sub_cancel_left])
  · exact (hread a).trans (if_neg (by omega))
  · exact s.appendAll_inseq _
  · exact s.appendAll_len _
  · exact s.appendAll_offw _

/-! Commands performed one after another in one state. -/

/-- A list of commands leaves their bytes in order, and one response each. -/
theorem execAll_next {is : List Instr} {s t : State} (h : execAll is s = .next t) :
    ∃ rsps, t = (s.appendAll (is.flatMap storedBytes)).respondAll rsps := by
  induction is generalizing s with
  | nil =>
    injection h with h
    exact ⟨[], h.symm.trans s.respondAll_nil.symm⟩
  | cons i is ih =>
    rw [execAll] at h
    split at h
    next s' hs =>
      obtain ⟨rsp, rfl, -⟩ := exec_next hs
      obtain ⟨rsps, rfl⟩ := ih h
      exact ⟨rsp :: rsps, State.appendAll_respondAll_cons ..⟩
    all_goals cases h

/-- What a list of commands appended, read from elsewhere. -/
theorem Memory.holds_of_execAll {is : List Instr} {s t : State} {m : Memory} {off cnt : Nat}
    (h : execAll is s = .next t) (hcnt : t.outlen = s.outlen + cnt)
    (hm : ∀ j < cnt, m.read (off + j) = t.outbuf.read (s.outlen + j)) :
    cnt = (is.flatMap storedBytes).length ∧ m.Holds off (is.flatMap storedBytes) := by
  obtain ⟨rsps, rfl⟩ := execAll_next h
  have hlen : cnt = (is.flatMap storedBytes).length :=
    Nat.add_left_cancel (hcnt.symm.trans (s.appendAll_outlen _))
  subst hlen
  refine ⟨rfl, fun j hj => (hm j hj).trans ?_⟩
  exact (s.appendAll_read _ _).trans (by rw [if_pos (by omega), Nat.add_sub_cancel_left])

/-! The cursor discipline. -/

theorem decodeChain32_succ {s : State} {off off' cnt : Nat} {v : BitVec 32} (n : Nat)
    (h : exec (.vdec32 off) s = .next (s.respond (.dec32 v off' cnt))) :
    decodeChain32 (n + 1) off s =
      (decodeChain32 n off' (s.respond (.dec32 v off' cnt))).map fun p => (v :: p.1, p.2) := by
  simp [decodeChain32, h]

theorem decodeChain64_succ {s : State} {off off' cnt : Nat} {v : BitVec 64} (n : Nat)
    (h : exec (.vdec64 off) s = .next (s.respond (.dec64 v off' cnt))) :
    decodeChain64 (n + 1) off s =
      (decodeChain64 n off' (s.respond (.dec64 v off' cnt))).map fun p => (v :: p.1, p.2) := by
  simp [decodeChain64, h]

/-- Decodes that each start where the one before ended give the values laid out, for any chain that goes on from
a decode's response. -/
theorem Codec.chain_eq {w : Nat} {c : Codec w} (hc : c.Lawful)
    {chain : Nat → Nat → State → Option (List (BitVec w) × Nat)}
    (hzero : ∀ off s, chain 0 off s = some ([], off))
    (hsucc : ∀ {s : State} {off off' cnt : Nat} {v : BitVec w} (n : Nat),
      exec (c.vdec off) s = .next (s.respond (c.value v off' cnt)) → chain (n + 1) off s =
        (chain n off' (s.respond (c.value v off' cnt))).map fun p => (v :: p.1, p.2))
    (vs : List (BitVec w)) {s : State} {off : Nat}
    (hm : s.inseq.Holds off ((vs.map c.venc).flatMap storedBytes))
    (hlen : off + ((vs.map c.venc).flatMap storedBytes).length ≤ s.len) :
    chain vs.length off s = some (vs, off + ((vs.map c.venc).flatMap storedBytes).length) := by
  induction vs generalizing s off with
  | nil => exact hzero off s
  | cons v vs ih =>
    rw [List.map_cons, List.flatMap_cons] at hm hlen ⊢
    rw [List.length_append, ← Nat.add_assoc] at hlen ⊢
    obtain ⟨hfirst, hrest⟩ := Memory.holds_append hm
    have hexec := exec_vdec_of_holds_zzEnc hc hfirst (by omega)
    rw [List.length_cons, hsucc _ hexec, ih (by simpa using hrest) (by simpa using hlen)]
    rfl

/-- Settles O33: by induction on the values, each decode leaving the cursor where the next one's bytes begin. -/
theorem sequencesDecodeInOrder : Obligations.SequencesDecodeInOrder := by
  refine ⟨fun vs s t s' off cnt h hcnt hm hlen => ?_, fun vs s t s' off cnt h hcnt hm hlen => ?_⟩
  all_goals obtain ⟨rfl, hholds⟩ := Memory.holds_of_execAll h hcnt hm
  · exact Codec.chain_eq codec32_lawful (fun _ _ => rfl) decodeChain32_succ vs hholds hlen
  · exact Codec.chain_eq codec64_lawful (fun _ _ => rfl) decodeChain64_succ vs hholds hlen

end Sys2Proof.Machine
end

section
/-! SUPPORT. The two codecs beat by beat (spec/20_memory.md R40, R41): the laws the ports add to those of `Codec.Lawful`,
proved once for each width. -/

namespace Sys2Proof

/-- A command has the op code its encoding drives. -/
theorem op_eq_of_decode_eq {r : Request} {i : Instr} (h : decode r = i) : r.op = (encode i).op := by
  subst h
  rcases r.op_cases with h | h | h | h | h | h | h | h
  · rw [decode_of_op_venc32 h, h]; rfl
  · rw [decode_of_op_venc64 h, h]; rfl
  · rw [decode_of_op_vdec32 h, h]; rfl
  · rw [decode_of_op_vdec64 h, h]; rfl
  · rw [decode_of_op_zzenc32 h, h]; rfl
  · rw [decode_of_op_zzenc64 h, h]; rfl
  · rw [decode_of_op_zzdec32 h, h]; rfl
  · rw [decode_of_op_zzdec64 h, h]; rfl

theorem decode_eq_venc32_iff {r : Request} {v : BitVec 32} :
    decode r = .venc32 v ↔ r.op = 0b000#3 ∧ v = operand32 r.val := by
  refine ⟨fun h => ?_, fun ⟨hop, hv⟩ => ?_⟩
  · have hop : r.op = 0b000#3 := op_eq_of_decode_eq h
    rw [decode_of_op_venc32 hop] at h
    injection h with h
    exact ⟨hop, h ▸ (operand32_eq_extractLsb' _).symm⟩
  · rw [decode_of_op_venc32 hop, hv, operand32_eq_extractLsb']

theorem decode_eq_venc64_iff {r : Request} {v : BitVec 64} :
    decode r = .venc64 v ↔ r.op = 0b001#3 ∧ v = r.val := by
  refine ⟨fun h => ?_, fun ⟨hop, hv⟩ => hv ▸ decode_of_op_venc64 hop⟩
  have hop : r.op = 0b001#3 := op_eq_of_decode_eq h
  rw [decode_of_op_venc64 hop] at h
  injection h with h
  exact ⟨hop, h.symm⟩

theorem decode_eq_vdec32_iff {r : Request} {off : Nat} :
    decode r = .vdec32 off ↔ r.op = 0b010#3 ∧ off = r.off := by
  refine ⟨fun h => ?_, fun ⟨hop, ho⟩ => ho ▸ decode_of_op_vdec32 hop⟩
  have hop : r.op = 0b010#3 := op_eq_of_decode_eq h
  rw [decode_of_op_vdec32 hop] at h
  injection h with h
  exact ⟨hop, h.symm⟩

theorem decode_eq_vdec64_iff {r : Request} {off : Nat} :
    decode r = .vdec64 off ↔ r.op = 0b011#3 ∧ off = r.off := by
  refine ⟨fun h => ?_, fun ⟨hop, ho⟩ => ho ▸ decode_of_op_vdec64 hop⟩
  have hop : r.op = 0b011#3 := op_eq_of_decode_eq h
  rw [decode_of_op_vdec64 hop] at h
  injection h with h
  exact ⟨hop, h.symm⟩

end Sys2Proof

namespace Sys2Proof.Machine

namespace Codec

variable {w : Nat} (c : Codec w) (req : Request) (len : Nat) (acc u : BitVec w) (k : Nat) (b : Byte)

/-- The decoder before its next byte: the bound check of R36, then the byte is asked for. -/
def ask : Phase :=
  if len ≤ req.off + k then .respond req (.fault .truncated req.off) else c.reading req acc k

/-- What a decode does with the byte it is answered (R82, R92, R105). -/
def afterByte : Phase :=
  match decodePass c.bound acc k b with
  | .done a j => .respond req (c.value (zzDec a) (req.off + j) j)
  | .overlong => .respond req (.fault .overlong req.off)
  | .more a j => c.ask req len a j

/-- What an encode does once the byte offered is taken (R80, R90). -/
def afterAppend : Phase :=
  if more u then c.emitting req (rest u) (k + 1) else .respond req (.enc (k + 1))

section AfterByte

variable {c req len acc u k b}

theorem ask_truncated (h : len ≤ req.off + k) :
    c.ask req len acc k = .respond req (.fault .truncated req.off) :=
  if_pos h

theorem ask_reading (h : req.off + k < len) : c.ask req len acc k = c.reading req acc k :=
  if_neg (not_le.2 h)

theorem afterByte_stop (h : contBit b = false) : c.afterByte req len acc k b =
    .respond req (c.value (zzDec (accumulate acc b k)) (req.off + (k + 1)) (k + 1)) := by
  simp [afterByte, decodePass, h]

theorem afterByte_overlong (h : contBit b = true) (hk : k + 1 = c.bound) :
    c.afterByte req len acc k b = .respond req (.fault .overlong req.off) := by
  simp [afterByte, decodePass, h, hk]

theorem afterByte_more (h : contBit b = true) (hk : k + 1 ≠ c.bound) :
    c.afterByte req len acc k b = c.ask req len (accumulate acc b k) (k + 1) := by
  simp [afterByte, decodePass, h, hk]

theorem afterAppend_more (h : more u = true) :
    c.afterAppend req u k = c.emitting req (rest u) (k + 1) :=
  if_pos h

theorem afterAppend_done (h : more u = false) :
    c.afterAppend req u k = .respond req (.enc (k + 1)) :=
  if_neg (Bool.eq_false_iff.1 h)

end AfterByte

/-- The laws that tie a `Codec` to the beats and to the invariant. -/
structure BeatLawful : Prop extends c.Lawful where
  bound_le : c.bound ≤ 10
  start_venc : ∀ (req : Request) (len : Nat) (v : BitVec w),
    startPhase req len (c.venc v) = c.emitting req (zzEnc v) 0
  start_vdec : ∀ (req : Request) (len off : Nat),
    startPhase req len (c.vdec off) = c.ask req len 0#w 0
  appendBeat : ∀ {s : State} {req : Request} {u : BitVec w} {k : Nat}, s.phase = c.emitting req u k →
    s.appendBeat = .next ((s.append (nextByte u)).withPhase (c.afterAppend req u k))
  readBeat : ∀ {s : State} {req : Request} {acc : BitVec w} {k : Nat} (b : Byte),
    s.phase = c.reading req acc k →
    s.readBeat b = .next (s.withPhase (c.afterByte req s.len acc k b))
  fairBeat_emitting : ∀ {s : State} {req : Request} {u : BitVec w} {k : Nat},
    s.phase = c.emitting req u k → fairBeat s = s.appendBeat
  fairBeat_reading : ∀ {s : State} {req : Request} {acc : BitVec w} {k : Nat},
    s.phase = c.reading req acc k → fairBeat s = s.answerRead (req.off + k)
  emitting_ne_idle : ∀ (req : Request) (u : BitVec w) (k : Nat), c.emitting req u k ≠ .idle
  off_eq : ∀ {req : Request} {off : Nat}, decode req = c.vdec off → off = req.off
  emitting_wf : ∀ {offw len : Nat} {req : Request} {u : BitVec w} {k : Nat},
    (c.emitting req u k).wf offw len ↔ req.wf offw = true ∧ k < c.bound ∧
      ∃ v, decode req = c.venc v ∧ u = zzEnc v >>> (7 * k) ∧ (k = 0 ∨ u ≠ 0#w)
  reading_wf : ∀ {offw len : Nat} {req : Request} {acc : BitVec w} {k : Nat},
    (c.reading req acc k).wf offw len ↔ req.wf offw = true ∧ decode req = c.vdec req.off ∧
      k < c.bound ∧ req.off + k < len ∧ acc.toNat < 2 ^ (7 * k)
  value_wf : ∀ {offw o k : Nat} (v : BitVec w), 1 ≤ k → k ≤ c.bound → o < 2 ^ offw →
    (c.value v o k).wf offw
  enc_answers : ∀ {k : Nat} (v : BitVec w), 1 ≤ k → k ≤ c.bound →
    (Response.enc k).answers (c.venc v)

end Codec

theorem afterByte32_eq (req : Request) (len : Nat) (acc : BitVec 32) (k : Nat) (b : Byte) :
    afterByte32 req len acc k b = codec32.afterByte req len acc k b := by
  rw [afterByte32, Codec.afterByte, show codec32.bound = Config.maxBytes32 from rfl]
  cases decodePass Config.maxBytes32 acc k b <;> rfl

theorem afterByte64_eq (req : Request) (len : Nat) (acc : BitVec 64) (k : Nat) (b : Byte) :
    afterByte64 req len acc k b = codec64.afterByte req len acc k b := by
  rw [afterByte64, Codec.afterByte, show codec64.bound = Config.maxBytes64 from rfl]
  cases decodePass Config.maxBytes64 acc k b <;> rfl

theorem codec32_beatLawful : codec32.BeatLawful where
  toLawful := codec32_lawful
  bound_le := by decide
  start_venc _ _ _ := rfl
  start_vdec _ _ _ := rfl
  appendBeat h := by rw [State.appendBeat, h]; rfl
  readBeat b h := by rw [State.readBeat, h]; exact congrArg _ (congrArg _ (afterByte32_eq ..))
  fairBeat_emitting h := by rw [fairBeat, h]; rfl
  fairBeat_reading h := by rw [fairBeat, h]; rfl
  emitting_ne_idle := nofun
  off_eq h := (decode_eq_vdec32_iff.1 h).2
  emitting_wf {offw len req u k} := by
    refine ⟨fun ⟨hwf, hop, hk, hu, h0⟩ => ⟨hwf, hk, _, decode_eq_venc32_iff.2 ⟨hop, rfl⟩, hu, h0⟩, ?_⟩
    rintro ⟨hwf, hk, v, hv, hu, h0⟩
    obtain ⟨hop, rfl⟩ := decode_eq_venc32_iff.1 hv
    exact ⟨hwf, hop, hk, hu, h0⟩
  reading_wf :=
    and_congr_right fun _ => and_congr_left fun _ =>
      ⟨fun h => decode_of_op_vdec32 h, fun h => (decode_eq_vdec32_iff.1 h).1⟩
  value_wf _ h1 h5 ho := ⟨h1, h5, ho⟩
  enc_answers _ h1 h5 := ⟨h1, h5⟩

theorem codec64_beatLawful : codec64.BeatLawful where
  toLawful := codec64_lawful
  bound_le := by decide
  start_venc _ _ _ := rfl
  start_vdec _ _ _ := rfl
  appendBeat h := by rw [State.appendBeat, h]; rfl
  readBeat b h := by rw [State.readBeat, h]; exact congrArg _ (congrArg _ (afterByte64_eq ..))
  fairBeat_emitting h := by rw [fairBeat, h]; rfl
  fairBeat_reading h := by rw [fairBeat, h]; rfl
  emitting_ne_idle := nofun
  off_eq h := (decode_eq_vdec64_iff.1 h).2
  emitting_wf {offw len req u k} := by
    refine ⟨fun ⟨hwf, hop, hk, hu, h0⟩ => ⟨hwf, hk, _, decode_eq_venc64_iff.2 ⟨hop, rfl⟩, hu, h0⟩, ?_⟩
    rintro ⟨hwf, hk, v, hv, hu, h0⟩
    obtain ⟨hop, rfl⟩ := decode_eq_venc64_iff.1 hv
    exact ⟨hwf, hop, hk, hu, h0⟩
  reading_wf :=
    and_congr_right fun _ => and_congr_left fun _ =>
      ⟨fun h => decode_of_op_vdec64 h, fun h => (decode_eq_vdec64_iff.1 h).1⟩
  value_wf _ h1 h10 ho := ⟨h1, h10, ho⟩
  enc_answers _ h1 h10 := ⟨h1, h10⟩

end Sys2Proof.Machine
end

section
/-! SUPPORT. The invariant (spec/10_state.md sections 5 to 8): what keeps it, update by update and phase by phase, and
that every event of the host that fits the ports does. -/

namespace Sys2Proof.Machine

/-- Settles O7: the reset state's byte spaces and lists are empty. -/
theorem resetStateMeetsTheInvariant : Obligations.ResetStateMeetsTheInvariant where
  offw_pos := Nat.le_add_left 1 _
  outbuf_full := rfl
  inseq_wf := .nil
  inseq_full _ h := absurd h (Nat.not_lt_zero _)
  len_fits := Nat.zero_le _
  requests_wf _ h := absurd h List.not_mem_nil
  phase_wf := trivial
  responses_wf _ h := absurd h List.not_mem_nil

/-! The updates. -/

section Updates

variable {s : State} (h : s.Inv)
include h

theorem State.Inv.withPhase {p : Phase} (hp : p.wf s.offw s.len) : (s.withPhase p).Inv :=
  { h with phase_wf := hp }

theorem State.Inv.withRequests {rs : List Request} (hrs : ∀ r ∈ rs, r.wf s.offw = true) :
    (s.withRequests rs).Inv :=
  { h with requests_wf := hrs }

theorem State.Inv.append (b : Byte) : (s.append b).Inv :=
  { h with outbuf_full := Memory.write_full h.outbuf_full b }

theorem State.Inv.respond {rsp : Response} (hr : rsp.wf s.offw) : (s.respond rsp).Inv :=
  { h with
    responses_wf := by
      intro r hmem
      rcases List.mem_append.1 hmem with hmem | hmem
      · exact h.responses_wf r hmem
      · rw [List.mem_singleton.1 hmem]
        exact hr }

theorem State.Inv.len_lt : s.len < 2 ^ s.offw := by
  have := h.len_fits
  have := Nat.two_pow_pos s.offw
  omega

end Updates

/-- Only a decode's working state speaks of LEN. -/
theorem Phase.wf_of_not_decoding {p : Phase} {offw len len' : Nat} (hd : p.decoding = false)
    (h : p.wf offw len) : p.wf offw len' := by
  cases p with
  | decode32 => cases hd
  | decode64 => cases hd
  | _ => exact h

/-! The phases a beat leads to. -/

namespace Codec

section PhaseWf

variable {w : Nat} {c : Codec w} (hc : c.BeatLawful) {offw len : Nat} {req : Request}
include hc

theorem fault_wf (hwf : req.wf offw = true) (hdec : decode req = c.vdec req.off) (f : DecodeFault) :
    (Phase.respond req (.fault f req.off)).wf offw len :=
  ⟨hwf, hdec ▸ hc.fault_answers f req.off,
    show req.off < 2 ^ offw from of_decide_eq_true hwf⟩

theorem ask_wf {acc : BitVec w} {k : Nat} (hwf : req.wf offw = true)
    (hdec : decode req = c.vdec req.off) (hk : k < c.bound) (hacc : acc.toNat < 2 ^ (7 * k)) :
    (c.ask req len acc k).wf offw len := by
  rcases le_or_gt len (req.off + k) with hend | hlen
  · rw [ask_truncated hend]
    exact fault_wf hc hwf hdec _
  · rw [ask_reading hlen]
    exact hc.reading_wf.2 ⟨hwf, hdec, hk, hlen, hacc⟩

omit hc in
/-- The groups gathered stay below the next group's place. -/
theorem accumulate_toNat_lt {acc : BitVec w} {k : Nat} (b : Byte) (hw : 7 * k + 7 ≤ 2 * w)
    (hkw : 7 * k ≤ w) (hacc : acc.toNat < 2 ^ (7 * k)) :
    (accumulate acc b k).toNat < 2 ^ (7 * (k + 1)) := by
  have hg : (group b).toNat ≤ 127 := Nat.le_of_lt_succ (group b).isLt
  have hmul := Nat.mul_le_mul_right (2 ^ (7 * k)) hg
  have hmod := Nat.mod_le ((group b).toNat * 2 ^ (7 * k)) (2 ^ w)
  have hpow : 2 ^ (7 * (k + 1)) = 128 * 2 ^ (7 * k) := by
    rw [Nat.mul_succ, Nat.pow_add, Nat.mul_comm]
  rw [accumulate_toNat acc b k hw hkw hacc]
  omega

theorem afterByte_wf {acc : BitVec w} {k : Nat} (b : Byte) (hlen : len < 2 ^ offw)
    (h : (c.reading req acc k).wf offw len) : (c.afterByte req len acc k b).wf offw len := by
  obtain ⟨hwf, hdec, hk, hbelow, hacc⟩ := hc.reading_wf.1 h
  have hw := hc.groups_lt
  have hw2 := hc.groups_fit
  by_cases hb : contBit b = true
  · by_cases hlast : k + 1 = c.bound
    · rw [afterByte_overlong hb hlast]
      exact fault_wf hc hwf hdec _
    · rw [afterByte_more hb hlast]
      exact ask_wf hc hwf hdec (by omega) (accumulate_toNat_lt b (by omega) (by omega) hacc)
  · rw [afterByte_stop (Bool.eq_false_iff.2 hb)]
    exact ⟨hwf, hdec ▸ hc.value_answers _ (by omega) hk, hc.value_wf _ (by omega) hk (by omega)⟩

theorem afterAppend_wf {u : BitVec w} {k : Nat} (h : (c.emitting req u k).wf offw len) :
    (c.afterAppend req u k).wf offw len := by
  obtain ⟨hwf, hk, v, hv, hu, -⟩ := hc.emitting_wf.1 h
  by_cases hmore : more u = true
  · have hrest : rest u = zzEnc v >>> (7 * (k + 1)) := by
      rw [rest, hu, Nat.mul_succ, BitVec.shiftRight_add]
    have hne : rest u ≠ 0#w := bne_iff_ne.1 hmore
    have hk1 : k + 1 < c.bound := by
      by_contra hge
      have := hc.width_le
      exact hne (hrest.trans (BitVec.ushiftRight_eq_zero (by omega)))
    rw [afterAppend_more hmore]
    exact hc.emitting_wf.2 ⟨hwf, hk1, v, hv, hrest, .inr hne⟩
  · rw [afterAppend_done (Bool.eq_false_iff.2 hmore)]
    have := hc.bound_le
    exact ⟨hwf, hv ▸ hc.enc_answers v (by omega) hk, by omega, by omega⟩

end PhaseWf

end Codec

/-- A core that accepts a request starts in a legal working state. -/
theorem startPhase_wf {r : Request} {offw len : Nat} (hwf : r.wf offw = true) :
    (startPhase r len (decode r)).wf offw len := by
  rcases hi : decode r with v | v | off | off | n | n | u | u
  · exact codec32_beatLawful.emitting_wf.2 ⟨hwf, by decide, v, hi, by simp, .inl rfl⟩
  · exact codec64_beatLawful.emitting_wf.2 ⟨hwf, by decide, v, hi, by simp, .inl rfl⟩
  · obtain rfl := codec32_beatLawful.off_eq hi
    exact Codec.ask_wf codec32_beatLawful hwf hi (by decide) (by decide)
  · obtain rfl := codec64_beatLawful.off_eq hi
    exact Codec.ask_wf codec64_beatLawful hwf hi (by decide) (by decide)
  all_goals exact ⟨hwf, hi ▸ rfl, trivial⟩

/-! The beats. -/

/-- What an acceptance does (spec/10_state.md R22). -/
theorem acceptBeat_next {s t : State} (h : s.acceptBeat = .next t) :
    ∃ r rs, s.phase = .idle ∧ s.requests = r :: rs ∧
      t = (s.withRequests rs).withPhase (startPhase r s.len (decode r)) := by
  rw [State.acceptBeat, State.accepted] at h
  cases hp : s.phase with
  | idle =>
    cases hr : s.requests with
    | nil => simp [hp, hr] at h
    | cons r rs => exact ⟨r, rs, rfl, rfl, by simpa [hp, hr] using h.symm⟩
  | _ => simp [hp] at h

/-- A read beat changes the working state alone. -/
theorem readBeat_next {s t : State} {b : Byte} (h : s.readBeat b = .next t) :
    ∃ p, t = s.withPhase p := by
  rw [State.readBeat] at h
  split at h
  case h_1 | h_2 => injection h with h; exact ⟨_, h.symm⟩
  all_goals cases h

theorem takeBeat_next {s t : State} (h : s.takeBeat = .next t) :
    ∃ req rsp, s.phase = .respond req rsp ∧ t = (s.withPhase .idle).respond rsp := by
  rw [State.takeBeat] at h
  split at h
  next req rsp hp => injection h with h; exact ⟨req, rsp, hp, h.symm⟩
  all_goals cases h

section Beats

variable {s t : State} (hinv : s.Inv)
include hinv

theorem acceptBeat_inv (h : s.acceptBeat = .next t) : t.Inv := by
  obtain ⟨r, rs, -, hr, rfl⟩ := acceptBeat_next h
  have hwf (q : Request) (hq : q ∈ r :: rs) : q.wf s.offw = true := hinv.requests_wf q (hr ▸ hq)
  have hrs := hinv.withRequests fun q hq => hwf q (List.mem_cons_of_mem r hq)
  exact hrs.withPhase (startPhase_wf (hwf r List.mem_cons_self))

theorem appendBeat_inv (h : s.appendBeat = .next t) : t.Inv := by
  have hphase := hinv.phase_wf
  cases hp : s.phase with
  | encode32 req u k =>
    rw [hp] at hphase
    rw [codec32_beatLawful.appendBeat hp] at h
    injection h with h
    exact h ▸ (hinv.append _).withPhase (Codec.afterAppend_wf codec32_beatLawful hphase)
  | encode64 req u k =>
    rw [hp] at hphase
    rw [codec64_beatLawful.appendBeat hp] at h
    injection h with h
    exact h ▸ (hinv.append _).withPhase (Codec.afterAppend_wf codec64_beatLawful hphase)
  | _ => rw [State.appendBeat, hp] at h; cases h

theorem readBeat_inv {b : Byte} (h : s.readBeat b = .next t) : t.Inv := by
  have hphase := hinv.phase_wf
  cases hp : s.phase with
  | decode32 req acc k =>
    rw [hp] at hphase
    rw [codec32_beatLawful.readBeat b hp] at h
    injection h with h
    exact h ▸ hinv.withPhase (Codec.afterByte_wf codec32_beatLawful b hinv.len_lt hphase)
  | decode64 req acc k =>
    rw [hp] at hphase
    rw [codec64_beatLawful.readBeat b hp] at h
    injection h with h
    exact h ▸ hinv.withPhase (Codec.afterByte_wf codec64_beatLawful b hinv.len_lt hphase)
  | _ => rw [State.readBeat, hp] at h; cases h

theorem takeBeat_inv (h : s.takeBeat = .next t) : t.Inv := by
  obtain ⟨req, rsp, hp, rfl⟩ := takeBeat_next h
  obtain ⟨-, -, hrsp⟩ : (Phase.respond req rsp).wf s.offw s.len := hp ▸ hinv.phase_wf
  exact (hinv.withPhase (p := .idle) trivial).respond hrsp

theorem beat_inv {e : HostEvent} (he : e.wf s.offw) (h : beat e s = .next t) : t.Inv := by
  cases e with
  | issue r =>
    injection h with h
    refine h ▸ hinv.withRequests fun q hq => ?_
    rcases List.mem_append.1 hq with hq | hq
    · exact hinv.requests_wf q hq
    · rw [List.mem_singleton.1 hq]
      exact he
  | accept => exact acceptBeat_inv hinv h
  | appendTaken => exact appendBeat_inv hinv h
  | readAnswer b => exact readBeat_inv hinv h
  | takeResponse => exact takeBeat_inv hinv h
  | reset => injection h with h; exact h ▸ hinv.withPhase (p := .idle) trivial
  | driveInput m len =>
    obtain ⟨hm, hfull, hlen⟩ := he
    rw [beat] at h
    split at h
    · cases h
    · next hd =>
      injection h with h
      exact h ▸ { hinv with
        inseq_wf := hm
        inseq_full := hfull
        len_fits := hlen
        phase_wf := Phase.wf_of_not_decoding (Bool.eq_false_iff.2 hd) hinv.phase_wf }
  | foreignAppend b =>
    rw [beat] at h
    split at h
    · cases h
    · injection h with h
      exact h ▸ hinv.append b

end Beats

/-- Settles O8: event by event, each phase leading to a legal one. -/
theorem beatKeepsTheInvariant : Obligations.BeatKeepsTheInvariant := fun _ _ _ hinv he h =>
  beat_inv hinv he h

end Sys2Proof.Machine
end

section
/-! SUPPORT. A step against the beats of its operation (spec/10_state.md R22 against R12, R40, R41): how far each kind of
working state is from its end, and the statements about a step that rest on it. -/

namespace Sys2Proof.Machine

theorem State.withPhase_self {s : State} {p : Phase} (h : s.phase = p) : s.withPhase p = s := by
  subst h; rfl

/-- Appending does not touch the working state. -/
theorem State.appendAll_withPhase (s : State) (p : Phase) (bs : List Byte) :
    (s.withPhase p).appendAll bs = (s.appendAll bs).withPhase p := by
  induction bs generalizing s with
  | nil => rfl
  | cons b bs ih => exact ih (s.append b)

theorem State.withPhase_withPhase (s : State) (p q : Phase) :
    (s.withPhase p).withPhase q = s.withPhase q := rfl

/-- A step of a core that offers a response: the response is taken. -/
theorem step_respond {s : State} {req : Request} {rsp : Response} (hp : s.phase = .respond req rsp) :
    step s = .next ((s.withPhase .idle).respond rsp) := by
  rw [step_busy (by rw [hp]; nofun), State.finish, hp]

/-! Fair beats. -/

theorem fairBeats_succ {s t : State} (n : Nat) (h : fairBeat s = .next t) :
    fairBeats (n + 1) s = fairBeats n t := by
  rw [fairBeats, h]

theorem fairBeats_add {s t : State} {n : Nat} (m : Nat) (h : fairBeats n s = .next t) :
    fairBeats (n + m) s = fairBeats m t := by
  induction n generalizing s with
  | zero =>
    injection h with h
    rw [Nat.zero_add, h]
  | succ n ih =>
    rw [fairBeats] at h
    split at h
    next s' hs => rw [Nat.add_right_comm, fairBeats_succ _ hs, ih h]
    all_goals cases h

theorem fairBeat_respond {s : State} {req : Request} {rsp : Response}
    (hp : s.phase = .respond req rsp) : fairBeat s = .next ((s.withPhase .idle).respond rsp) := by
  rw [fairBeat, hp]
  simp only [beat]
  rw [State.takeBeat, hp]

/-- A response offered after `n` beats is taken with one more. -/
theorem fairBeats_take {s t : State} {n : Nat} {req : Request} {rsp : Response}
    (h : fairBeats n s = .next (t.withPhase (.respond req rsp))) :
    fairBeats (n + 1) s = .next ((t.withPhase .idle).respond rsp) := by
  rw [fairBeats_add 1 h, fairBeats_succ 0 (fairBeat_respond (t.withPhase_phase _))]
  rfl

theorem fairBeat_accept {s : State} {r : Request} {rs : List Request} (hp : s.phase = .idle)
    (hr : s.requests = r :: rs) :
    fairBeat s = .next ((s.withRequests rs).withPhase (startPhase r s.len (decode r))) := by
  rw [fairBeat, hp, hr]
  simp only [beat]
  rw [State.acceptBeat, hp, State.accepted, hr]
  rfl

/-- A fair host brings `s` to `t` in at least one and at most `n` beats. -/
def State.Reaches (s : State) (n : Nat) (t : State) : Prop :=
  ∃ m, 1 ≤ m ∧ m ≤ n ∧ fairBeats m s = .next t

theorem State.Reaches.mono {s t : State} {n n' : Nat} (h : s.Reaches n t) (hn : n ≤ n') :
    s.Reaches n' t := by
  obtain ⟨m, h1, hm, hbeats⟩ := h
  exact ⟨m, h1, hm.trans hn, hbeats⟩

theorem State.reaches_of_respond {s : State} {req : Request} {rsp : Response} {n : Nat}
    (hp : s.phase = .idle) : (s.withPhase (.respond req rsp)).Reaches (n + 1) (s.respond rsp) := by
  have := fairBeats_take (s := s.withPhase (.respond req rsp)) (n := 0) rfl
  rw [withPhase_self hp] at this
  exact ⟨1, le_rfl, by omega, this⟩

/-- A fair beat is an event that fits the ports. -/
theorem fairBeat_inv {s t : State} (hinv : s.Inv) (h : fairBeat s = .next t) : t.Inv := by
  have answer {i : Nat} (h : s.answerRead i = .next t) : t.Inv := by
    rw [State.answerRead] at h
    split at h
    · exact readBeat_inv hinv h
    · cases h
  rw [fairBeat] at h
  split at h
  · split at h
    · injection h with h
      exact h ▸ hinv
    · exact acceptBeat_inv hinv h
  · exact appendBeat_inv hinv h
  · exact appendBeat_inv hinv h
  · exact answer h
  · exact answer h
  · exact takeBeat_inv hinv h

theorem fairBeats_inv {s t : State} {n : Nat} (hinv : s.Inv) (h : fairBeats n s = .next t) : t.Inv := by
  induction n generalizing s with
  | zero => injection h with h; exact h ▸ hinv
  | succ n ih =>
    rw [fairBeats] at h
    split at h
    next s' hs => exact ih (fairBeat_inv hinv hs) h
    all_goals cases h

namespace Codec

variable {w : Nat} {c : Codec w} (hc : c.BeatLawful) {s : State} {req : Request}
include hc

/-! An encode in progress. -/

section Emitting

variable {u : BitVec w} {k n : Nat}

theorem fairBeat_append (hp : s.phase = c.emitting req u k) :
    fairBeat s = .next ((s.append (nextByte u)).withPhase (c.afterAppend req u k)) :=
  (hc.fairBeat_emitting hp).trans (hc.appendBeat hp)

/-- Before its last byte the encode is still in progress, with its first bytes appended. -/
theorem fairBeats_emitting_take {j : Nat} (hp : s.phase = c.emitting req u k)
    (hj : j < (encodeBytes n u).length) :
    ∃ u', fairBeats j s =
      .next ((s.appendAll ((encodeBytes n u).take j)).withPhase (c.emitting req u' (k + j))) := by
  induction j generalizing s u k n with
  | zero => exact ⟨u, congrArg _ (State.withPhase_self hp).symm⟩
  | succ j ih =>
    obtain ⟨n, rfl⟩ : ∃ m, n = m + 1 := by
      cases n with
      | zero => cases hj
      | succ n => exact ⟨n, rfl⟩
    have hmore : more u = true := by
      by_contra hno
      rw [encodeBytes_of_not_more (Bool.eq_false_iff.2 hno), List.length_singleton] at hj
      omega
    rw [encodeBytes_of_more hmore] at hj ⊢
    have hbeat := fairBeat_append hc hp
    rw [afterAppend_more hmore] at hbeat
    obtain ⟨u', hu'⟩ := ih (State.withPhase_phase _ _) (Nat.lt_of_succ_lt_succ hj)
    refine ⟨u', ?_⟩
    rw [fairBeats_succ j hbeat, hu', State.appendAll_withPhase, List.take_succ_cons,
      State.appendAll_cons, Nat.add_right_comm, Nat.add_assoc]
    rfl

/-- The last byte's beat offers the count. -/
theorem fairBeats_emitting_last (hp : s.phase = c.emitting req u k) (hdone : more u = false) :
    fairBeats (encodeBytes (n + 1) u).length s =
      .next ((s.appendAll (encodeBytes (n + 1) u)).withPhase
        (.respond req (.enc (k + (encodeBytes (n + 1) u).length)))) := by
  rw [encodeBytes_of_not_more hdone, List.length_singleton, fairBeats_succ 0 (fairBeat_append hc hp),
    afterAppend_done hdone]
  rfl

/-- As many beats as there are bytes left append them all and offer the count. -/
theorem fairBeats_emitting (hp : s.phase = c.emitting req u k) (hu : u.toNat < 2 ^ (7 * (n + 1))) :
    fairBeats (encodeBytes (n + 1) u).length s =
      .next ((s.appendAll (encodeBytes (n + 1) u)).withPhase
        (.respond req (.enc (k + (encodeBytes (n + 1) u).length)))) := by
  induction n generalizing s u k with
  | zero => exact fairBeats_emitting_last hc hp (more_eq_false_of_lt hu)
  | succ n ih =>
    by_cases hmore : more u = true
    · have hbeat := fairBeat_append hc hp
      rw [afterAppend_more hmore] at hbeat
      rw [encodeBytes_of_more hmore, List.length_cons, fairBeats_succ _ hbeat,
        ih (State.withPhase_phase _ _) (rest_toNat_lt hu), State.appendAll_withPhase,
        State.appendAll_cons, Nat.add_right_comm, Nat.add_assoc]
      rfl
    · exact fairBeats_emitting_last hc hp (Bool.eq_false_iff.2 hmore)

/-- The beats of an encode in progress do what its loop does. -/
theorem reaches_encodeFrom (hp : s.phase = c.emitting req u k) :
    s.Reaches 11 ((s.withPhase .idle).encodeFrom c.bound u k) := by
  obtain ⟨n, hn⟩ := Nat.exists_eq_add_of_le' hc.bound_pos
  have hu : u.toNat < 2 ^ (7 * (n + 1)) := hn ▸ hc.toNat_lt u
  have hlen := (encodeBytes_length_le c.bound u).trans hc.bound_le
  refine ⟨(encodeBytes c.bound u).length + 1, by omega, by omega, ?_⟩
  rw [hn, fairBeats_take (fairBeats_emitting hc hp hu), State.encodeFrom_eq, State.appendAll_withPhase]

end Emitting

/-! A decode in progress. -/

section Reading

variable {acc : BitVec w} {k todo : Nat}

theorem fairBeat_read {b : Byte} (hp : s.phase = c.reading req acc k)
    (hr : s.inseq.read (req.off + k) = some b) :
    fairBeat s = .next (s.withPhase (c.afterByte req s.len acc k b)) := by
  rw [hc.fairBeat_reading hp, State.answerRead, hr]
  exact hc.readBeat b hp

/-- From the bound check on, at most as many beats as bytes are allowed offer the response of the loop's end. -/
theorem fairBeats_ask (hfull : ∀ a < s.len, (s.inseq.read a).isSome = true) (htodo : 0 < todo)
    (hk : k + todo = c.bound) :
    ∃ n rsp, n ≤ todo ∧
      fairBeats n (s.withPhase (c.ask req s.len acc k)) = .next (s.withPhase (.respond req rsp)) ∧
      c.endDecode (s.withPhase .idle) req.off (decodeLoop s.inseq s.len req.off todo acc k) =
        .next ((s.withPhase .idle).respond rsp) := by
  induction todo generalizing acc k with
  | zero => omega
  | succ todo ih =>
    rcases le_or_gt s.len (req.off + k) with hend | hlen
    · refine ⟨0, .fault .truncated req.off, Nat.zero_le _, ?_, ?_⟩
      · rw [ask_truncated hend]; rfl
      · rw [decodeLoop_truncated _ htodo hend]; rfl
    obtain ⟨b, hb⟩ := Option.isSome_iff_exists.1 (hfull _ hlen)
    have hbeat := fairBeat_read hc (s := s.withPhase (c.reading req acc k)) rfl hb
    rw [ask_reading hlen]
    by_cases hcont : contBit b = true
    · have hloop : decodeLoop s.inseq s.len req.off (todo + 1) acc k =
          decodeLoop s.inseq s.len req.off todo (accumulate acc b k) (k + 1) := by
        rw [decodeLoop, if_neg (not_le.2 hlen), hb]
        simp [hcont]
      rw [hloop]
      by_cases hlast : k + 1 = c.bound
      · obtain rfl : todo = 0 := by omega
        rw [afterByte_overlong hcont hlast] at hbeat
        exact ⟨1, .fault .overlong req.off, le_rfl, fairBeats_succ 0 hbeat, rfl⟩
      · obtain ⟨n, rsp, hn, hbeats, hfinish⟩ :=
          ih (acc := accumulate acc b k) (k := k + 1) (by omega) (by omega)
        rw [afterByte_more hcont hlast] at hbeat
        exact ⟨n + 1, rsp, Nat.succ_le_succ hn, (fairBeats_succ n hbeat).trans hbeats, hfinish⟩
    · have hstop : contBit b = false := Bool.eq_false_iff.2 hcont
      rw [afterByte_stop hstop] at hbeat
      refine ⟨1, _, Nat.succ_le_succ (Nat.zero_le _), fairBeats_succ 0 hbeat, ?_⟩
      rw [decodeLoop_stop acc htodo hlen hb hstop]
      rfl

/-- The beats of a decode from its bound check on do what its loop does. -/
theorem reaches_finish (hfull : ∀ a < s.len, (s.inseq.read a).isSome = true) (hk : k < c.bound) :
    ∃ t, c.finish (s.withPhase .idle) req.off acc k = .next t ∧
      (s.withPhase (c.ask req s.len acc k)).Reaches 11 t := by
  obtain ⟨n, rsp, hn, hbeats, hfinish⟩ := fairBeats_ask hc (acc := acc) (k := k) (req := req) hfull
    (show 0 < c.bound - k by omega) (by omega)
  have := hc.bound_le
  exact ⟨_, hfinish, n + 1, by omega, by omega, fairBeats_take hbeats⟩

end Reading

/-! From the acceptance, and from the middle. -/

section Whole

theorem venc_reaches (v : BitVec w) (hp : s.phase = .idle) :
    ∃ t, exec (c.venc v) s = .next t ∧
      (s.withPhase (startPhase req s.len (c.venc v))).Reaches 11 t := by
  have := reaches_encodeFrom hc (s.withPhase_phase (c.emitting req (zzEnc v) 0))
  rw [State.withPhase_withPhase, State.withPhase_self hp] at this
  exact ⟨_, hc.exec_venc v s, hc.start_venc req s.len v ▸ this⟩

theorem vdec_reaches {off : Nat} (hdec : decode req = c.vdec off) (hp : s.phase = .idle)
    (hfull : ∀ a < s.len, (s.inseq.read a).isSome = true) :
    ∃ t, exec (c.vdec off) s = .next t ∧
      (s.withPhase (startPhase req s.len (c.vdec off))).Reaches 11 t := by
  obtain rfl := hc.off_eq hdec
  rw [hc.exec_vdec, hc.start_vdec]
  have := reaches_finish hc (req := req) (acc := 0#w) (k := 0) hfull hc.bound_pos
  rwa [State.withPhase_self hp] at this

theorem emitting_step_reaches {u : BitVec w} {k : Nat} (hp : s.phase = c.emitting req u k) :
    ∃ t, step s = .next t ∧ s.Reaches 11 t :=
  ⟨_, hc.step_emitting hp, reaches_encodeFrom hc hp⟩

theorem reading_step_reaches {acc : BitVec w} {k : Nat} (hinv : s.Inv)
    (hp : s.phase = c.reading req acc k) : ∃ t, step s = .next t ∧ s.Reaches 11 t := by
  obtain ⟨-, -, hk, hlen, -⟩ := hc.reading_wf.1 (hp ▸ hinv.phase_wf)
  have := reaches_finish hc (req := req) (acc := acc) hinv.inseq_full hk
  rwa [ask_reading hlen, State.withPhase_self hp, ← hc.step_reading hp] at this

end Whole

end Codec

/-! A step. -/

/-- The beats of a command from its acceptance on do what `exec` does. -/
theorem exec_reaches {s : State} (r : Request) (hp : s.phase = .idle)
    (hfull : ∀ a < s.len, (s.inseq.read a).isSome = true) :
    ∃ t, exec (decode r) s = .next t ∧
      (s.withPhase (startPhase r s.len (decode r))).Reaches 11 t := by
  rcases hi : decode r with v | v | off | off | n | n | u | u
  · exact Codec.venc_reaches codec32_beatLawful v hp
  · exact Codec.venc_reaches codec64_beatLawful v hp
  · exact Codec.vdec_reaches codec32_beatLawful hi hp hfull
  · exact Codec.vdec_reaches codec64_beatLawful hi hp hfull
  all_goals exact ⟨_, rfl, State.reaches_of_respond hp⟩

/-- Every operation, from its beginning or its middle, ends in the state its step answers. -/
theorem step_reaches {s : State} (hinv : s.Inv) (hwork : s.phase ≠ .idle ∨ s.requests ≠ []) :
    ∃ t, step s = .next t ∧ s.Reaches 12 t := by
  rcases hp : s.phase with _ | ⟨req, u, k⟩ | ⟨req, u, k⟩ | ⟨req, acc, k⟩ | ⟨req, acc, k⟩ | ⟨req, rsp⟩
  case idle =>
    obtain ⟨r, rs, hr⟩ := List.exists_cons_of_ne_nil (hwork.resolve_left (not_not.2 hp))
    obtain ⟨t, hexec, n, -, hn, hbeats⟩ := exec_reaches (s := s.withRequests rs) r hp hinv.inseq_full
    exact ⟨t, (step_idle_cons hp hr).trans hexec, n + 1, by omega, by omega,
      (fairBeats_succ _ (fairBeat_accept hp hr)).trans hbeats⟩
  case encode32 =>
    obtain ⟨t, hstep, hbeats⟩ := Codec.emitting_step_reaches codec32_beatLawful hp
    exact ⟨t, hstep, hbeats.mono (by decide)⟩
  case encode64 =>
    obtain ⟨t, hstep, hbeats⟩ := Codec.emitting_step_reaches codec64_beatLawful hp
    exact ⟨t, hstep, hbeats.mono (by decide)⟩
  case decode32 =>
    obtain ⟨t, hstep, hbeats⟩ := Codec.reading_step_reaches codec32_beatLawful hinv hp
    exact ⟨t, hstep, hbeats.mono (by decide)⟩
  case decode64 =>
    obtain ⟨t, hstep, hbeats⟩ := Codec.reading_step_reaches codec64_beatLawful hinv hp
    exact ⟨t, hstep, hbeats.mono (by decide)⟩
  case respond =>
    exact ⟨_, step_respond hp, 1, by decide, by decide, fairBeats_succ 0 (fairBeat_respond hp)⟩

/-- Settles O9: phase by phase, the beats left end in the state of the step; an idle core accepts first. -/
theorem atomicStepIsReachedByFairBeats : Obligations.AtomicStepIsReachedByFairBeats := by
  intro s hinv hwork
  obtain ⟨t, hstep, n, h1, h12, hbeats⟩ := step_reaches hinv hwork
  exact ⟨n, t, h1, h12, hstep, hbeats⟩

/-- Settles O6: a step is what fair beats do, and each of these keeps the invariant. -/
theorem stepKeepsTheInvariant : Obligations.StepKeepsTheInvariant := by
  intro s t hinv h
  by_cases hwork : s.phase ≠ .idle ∨ s.requests ≠ []
  · obtain ⟨t', hstep, n, -, -, hbeats⟩ := step_reaches hinv hwork
    rw [h] at hstep
    injection hstep with hstep
    exact hstep ▸ fairBeats_inv hinv hbeats
  · obtain ⟨hp, hr⟩ := not_or.1 hwork
    rw [step_idle_nil (not_not.1 hp) (not_not.1 hr)] at h
    injection h with h
    exact h ▸ hinv

end Sys2Proof.Machine
end

section
/-! SUPPORT. What the step of a busy core answers (spec/10_state.md R22, log 5): the rest of an operation against the
whole of it. -/

namespace Sys2Proof.Machine

/-- An operation that appends `bs` and answers `rsp` is over. -/
theorem State.finishedAs (s : State) (bs : List Byte) (rsp : Response) :
    s.FinishedAs bs rsp (((s.withPhase .idle).appendAll bs).respond rsp) := by
  refine ⟨by simp, by simp, by simp, fun j hj => ?_, fun a ha => ?_, by simp, by simp, by simp, by simp⟩
  · rw [respond_outbuf, appendAll_read, withPhase_outlen, if_pos (by omega), Nat.add_sub_cancel_left]
  · rw [respond_outbuf, appendAll_read, withPhase_outlen, if_neg (by omega), withPhase_outbuf]

section Encode

variable {w n : Nat} {u : BitVec w} (hw : w ≤ 7 * (n + 1))
include hw

/-- A loop that goes on leaves the encoding of what remains, in as many passes. -/
theorem encodeBytes_of_more_same_passes (h : more u = true) :
    encodeBytes (n + 1) u = nextByte u :: encodeBytes (n + 1) (rest u) := by
  have hlt (v : BitVec w) : v.toNat < 2 ^ (7 * (n + 1)) :=
    v.isLt.trans_le (Nat.pow_le_pow_right (by decide) hw)
  obtain ⟨m, rfl⟩ := exists_pass_of_more (hlt u) h
  rw [encodeBytes_of_more h, encodeBytes_eq_of_toNat_eq rfl (rest_toNat_lt (hlt u)) (hlt (rest u))]

/-- The bytes of what remains after `k` groups are the bytes from byte `k` on. -/
theorem encodeBytes_ushiftRight {k : Nat} (h : k = 0 ∨ u >>> (7 * k) ≠ 0#w) :
    encodeBytes (n + 1) (u >>> (7 * k)) = (encodeBytes (n + 1) u).drop k := by
  induction k with
  | zero => simp
  | succ k ih =>
    have hshift : u >>> (7 * (k + 1)) = rest (u >>> (7 * k)) := by
      rw [rest, Nat.mul_succ, BitVec.shiftRight_add]
    have hne : rest (u >>> (7 * k)) ≠ 0#w := hshift ▸ h.resolve_left k.succ_ne_zero
    have hprev : u >>> (7 * k) ≠ 0#w := fun h0 => hne (by rw [h0, rest, BitVec.zero_ushiftRight])
    rw [← List.drop_drop, ← ih (.inr hprev), encodeBytes_of_more_same_passes hw (bne_iff_ne.2 hne),
      hshift, List.drop_one, List.tail_cons]

end Encode

namespace Codec

variable {w : Nat} {c : Codec w} (hc : c.BeatLawful) {s : State} (hinv : s.Inv)
  {req : Request} {k : Nat}
include hc hinv

/-- The step of a core in the middle of an encode appends the bytes left and answers the count of all. -/
theorem step_emitting_finishedAs {u : BitVec w} (hp : s.phase = c.emitting req u k) :
    ∃ t, step s = .next t ∧ encodeBytes c.bound u = (storedBytes (decode req)).drop k ∧
      s.FinishedAs (encodeBytes c.bound u) (.enc (storedBytes (decode req)).length) t := by
  obtain ⟨-, -, v, hv, rfl, hk⟩ := hc.emitting_wf.1 (hp ▸ hinv.phase_wf)
  obtain ⟨n, hn⟩ := Nat.exists_eq_add_of_le' hc.bound_pos
  have hdrop : encodeBytes c.bound (zzEnc v >>> (7 * k)) = (storedBytes (decode req)).drop k := by
    rw [hv, hc.storedBytes_venc, hn]
    exact encodeBytes_ushiftRight (hn ▸ hc.width_le) hk
  have hcount : k + (encodeBytes c.bound (zzEnc v >>> (7 * k))).length =
      (storedBytes (decode req)).length := by
    have hpos : 1 ≤ (encodeBytes c.bound (zzEnc v >>> (7 * k))).length := by
      rw [hn]
      exact encodeBytes_length_pos n _
    rw [hdrop, List.length_drop] at hpos ⊢
    omega
  refine ⟨_, hc.step_emitting hp, hdrop, ?_⟩
  rw [State.encodeFrom_eq, hcount]
  exact s.finishedAs _ _

/-- The step of a core in the middle of a decode answers what the whole command answers, on any input with the
bytes consumed before the one asked for. -/
theorem step_reading_finishedAs {acc : BitVec w} (hp : s.phase = c.reading req acc k) :
    ∃ t rsp, step s = .next t ∧ s.FinishedAs [] rsp t ∧ rsp.answers (decode req) ∧
      ∀ (m : Memory) (b : Nat → Byte),
        (∀ i < k, m.read (req.off + i) = some (b i) ∧ contBit (b i) = true) →
        (∀ a, req.off + k ≤ a → m.read a = s.inseq.read a) → acc = BitVec.ofNat w (groupSum b k) →
        exec (decode req) { s with inseq := m, phase := .idle } = .next { t with inseq := m } := by
  obtain ⟨-, hdec, hk, hlen, -⟩ := hc.reading_wf.1 (hp ▸ hinv.phase_wf)
  have hgroups := hc.groups_lt
  have hfit := hc.groups_fit
  obtain ⟨rsp, hfinish, hrsp⟩ := finish_answers (c := c) (s := s.withPhase .idle) (off := req.off)
    (acc := acc) (k := k) hinv.inseq_full
  refine ⟨_, rsp, (hc.step_reading hp).trans hfinish, s.finishedAs [] rsp, ?_, fun m b hb hm hacc => ?_⟩
  · rw [hdec]
    rcases hrsp with ⟨v, j, rfl, h1, hj, -⟩ | ⟨f, rfl⟩
    · exact hc.value_answers v (by omega) (by omega)
    · exact hc.fault_answers f req.off
  · have hloop : decodeLoop m s.len req.off c.bound (0#w) 0 =
        decodeLoop s.inseq s.len req.off (c.bound - k) acc k := by
      rw [decodeLoop_continue hk.le fun i hi => ⟨by omega, hb i hi⟩,
        gather_firstBytes b k (by omega) (by omega), hacc, decodeLoop_congr hm]
    rw [hdec, hc.exec_vdec, finish, Nat.sub_zero, hloop]
    exact endDecode_respond _ hfinish

end Codec

/-- Settles O5: the response pending is the answer, an encode's last bytes those of its magnitude shifted, a
decode's loop the tail of the whole loop. -/
theorem busyStepEndsItsOperationFirst : Obligations.BusyStepEndsItsOperationFirst := by
  intro s hinv
  refine ⟨fun req rsp hp => ?_, fun req u k hp => ?_, fun req u k hp => ?_, fun req acc k hp => ?_,
    fun req acc k hp => ?_⟩
  · obtain ⟨-, hrsp, -⟩ : (Phase.respond req rsp).wf s.offw s.len := hp ▸ hinv.phase_wf
    exact ⟨_, step_respond hp, s.finishedAs [] rsp, hrsp⟩
  · exact Codec.step_emitting_finishedAs codec32_beatLawful hinv hp
  · exact Codec.step_emitting_finishedAs codec64_beatLawful hinv hp
  · exact Codec.step_reading_finishedAs codec32_beatLawful hinv hp
  · exact Codec.step_reading_finishedAs codec64_beatLawful hinv hp

end Sys2Proof.Machine
end

section
/-! SUPPORT. Reset in the middle of an operation, and a host that answers reads with bytes of its own
(spec/70_reset_and_hazards.md R120, R121, R124). -/

namespace Sys2Proof.Machine

theorem beats_cons {e : HostEvent} {es : List HostEvent} {s t : State} (h : beat e s = .next t) :
    beats (e :: es) s = beats es t := by
  rw [beats, h]

theorem beat_accept {s : State} {r : Request} {rs : List Request} (hp : s.phase = .idle)
    (hr : s.requests = r :: rs) :
    beat .accept s = .next ((s.withRequests rs).withPhase (startPhase r s.len (decode r))) := by
  have := fairBeat_accept hp hr
  rwa [fairBeat, hp, hr] at this

/-! Reset. -/

/-- Every byte of an encoding but its last has its continuation bit set. -/
theorem contBit_of_encodeBytes_getElem? {w n i : Nat} {u : BitVec w} {b : Byte}
    (hu : u.toNat < 2 ^ (7 * n)) (hi : i + 1 < (encodeBytes n u).length)
    (hb : (encodeBytes n u)[i]? = some b) : contBit b = true := by
  rw [encodeBytes_getElem?_eq_encodedAt hu (by omega)] at hb
  rw [← Option.some.inj hb, contBit_encodedAt, decide_eq_true hi]

/-- An encode after `j` of its bytes: still in progress, all of these with their continuation bit set. -/
theorem Codec.fairBeats_abandoned {w : Nat} {c : Codec w} (hc : c.BeatLawful) {s : State} {r : Request}
    {rs : List Request} {v : BitVec w} {j : Nat} (hp : s.phase = .idle) (hr : s.requests = r :: rs)
    (hv : decode r = c.venc v) (hj : j < (storedBytes (decode r)).length) :
    (∃ p, p ≠ .idle ∧ fairBeats (j + 1) s =
      .next (((s.withRequests rs).appendAll ((storedBytes (decode r)).take j)).withPhase p)) ∧
    ∀ i < j, ∀ b, (storedBytes (decode r))[i]? = some b → contBit b = true := by
  have haccept := fairBeat_accept hp hr
  rw [hv, hc.start_venc] at haccept
  rw [hv, hc.storedBytes_venc] at hj ⊢
  obtain ⟨u', hu'⟩ := fairBeats_emitting_take hc (State.withPhase_phase (s.withRequests rs) _) hj
  rw [State.appendAll_withPhase, State.withPhase_withPhase] at hu'
  exact ⟨⟨_, hc.emitting_ne_idle _ _ _, (fairBeats_succ j haccept).trans hu'⟩,
    fun i hi b hb => contBit_of_encodeBytes_getElem? (hc.toNat_lt _) (by omega) hb⟩

theorem fairBeats_abandoned {s : State} {r : Request} {rs : List Request} {j : Nat}
    (hp : s.phase = .idle) (hr : s.requests = r :: rs) (hj : j < (storedBytes (decode r)).length) :
    (∃ p, p ≠ .idle ∧ fairBeats (j + 1) s =
      .next (((s.withRequests rs).appendAll ((storedBytes (decode r)).take j)).withPhase p)) ∧
    ∀ i < j, ∀ b, (storedBytes (decode r))[i]? = some b → contBit b = true := by
  cases hi : decode r with
  | venc32 v => exact hi ▸ Codec.fairBeats_abandoned codec32_beatLawful hp hr hi hj
  | venc64 v => exact hi ▸ Codec.fairBeats_abandoned codec64_beatLawful hp hr hi hj
  | _ => rw [hi] at hj; cases hj

/-- Settles O38: reset keeps all but the working state, and an encode in progress has appended the first of
its bytes. -/
theorem resetDuringAnOperationAbandonsIt : Obligations.ResetDuringAnOperationAbandonsIt := by
  refine ⟨fun s r rs j hp hr hj => ?encode, fun s t r rs hr h => ?accept, fun s t b h => ?read⟩
  case encode =>
    obtain ⟨⟨p, hbusy, hbeats⟩, hcont⟩ := fairBeats_abandoned hp hr hj
    have hlen : ((storedBytes (decode r)).take j).length = j := List.length_take_of_le hj.le
    have hread (a : Nat) := (s.withRequests rs).appendAll_read ((storedBytes (decode r)).take j) a
    rw [hlen] at hread
    refine ⟨_, _, hbeats, hbusy, rfl, rfl, by simp, by simp, ?_, fun i hi => ⟨?_, hcont i hi⟩,
      fun a ha => ?_, by simp, by simp, by simp⟩
    · simp [Nat.min_eq_left hj.le]
    · refine (hread _).trans ?_
      rw [State.withRequests_outlen, if_pos (by omega), Nat.add_sub_cancel_left,
        List.getElem?_take_of_lt hi]
    · refine (hread _).trans ?_
      rw [State.withRequests_outlen, if_neg (by omega), State.withRequests_outbuf]
  case accept =>
    obtain ⟨r', rs', -, hr', rfl⟩ := acceptBeat_next h
    obtain ⟨rfl, rfl⟩ := List.cons.inj (hr.symm.trans hr')
    rfl
  case read =>
    obtain ⟨p, rfl⟩ := readBeat_next h
    rfl

/-! Bytes the read port returned. -/

/-- The bytes `bs` of the read port bring a decode from its bound check to `rsp`, and so does an input that holds
them. -/
def Codec.Answers {w : Nat} (c : Codec w) (s : State) (req : Request) (bs : List Byte)
    (rsp : Response) : Prop :=
  rsp.answers (c.vdec req.off) ∧
    beats (bs.map .readAnswer ++ [.takeResponse]) (s.withPhase (c.ask req s.len 0#w 0)) =
      .next ((s.withPhase .idle).respond rsp) ∧
    ∀ s' : State, s'.len = s.len → s'.inseq = Memory.ofBytes req.off bs →
      exec (c.vdec req.off) s' = .next (s'.respond rsp)

theorem Memory.read_ofBytes_add (off : Nat) (bs : List Byte) (j : Nat) :
    (Memory.ofBytes off bs).read (off + j) = bs[j]? := by
  rw [Memory.read_ofBytes, if_pos (Nat.le_add_right off j), Nat.add_sub_cancel_left]

/-- Continuation bytes laid out first bring the loop to the byte after them. -/
theorem decodeLoop_ofBytes_append {w : Nat} {len off n : Nat} {cs bs : List Byte}
    (hcont : ∀ b ∈ cs, contBit b = true) (hn : cs.length ≤ n) (hlen : cs ≠ [] → off + cs.length ≤ len) :
    decodeLoop (Memory.ofBytes off (cs ++ bs)) len off n (0#w) 0 =
      decodeLoop (Memory.ofBytes off (cs ++ bs)) len off (n - cs.length) (gather 0#w 0 cs)
        cs.length := by
  obtain ⟨todo, rfl⟩ := Nat.exists_eq_add_of_le' hn
  rcases eq_or_ne cs [] with rfl | hne
  · rfl
  rw [decodeLoop_gather cs hcont todo _ 0 (hlen hne), Nat.zero_add, Nat.add_sub_cancel]
  intro j hj
  rw [Nat.add_zero, Memory.read_ofBytes_add, List.getElem?_append_left hj]

namespace Codec

variable {w : Nat} {c : Codec w} (hc : c.BeatLawful) {s : State} {req : Request}
  {cs : List Byte} {b : Byte}
include hc

theorem beat_readAnswer {acc : BitVec w} {k : Nat} (b : Byte) (hp : s.phase = c.reading req acc k) :
    beat (.readAnswer b) s = .next (s.withPhase (c.afterByte req s.len acc k b)) :=
  hc.readBeat b hp

/-- While the bytes returned go on, below the bound and below LEN, the decode asks for more. -/
theorem beats_continue {es : List HostEvent} {acc : BitVec w} {k : Nat}
    (hcont : ∀ b ∈ cs, contBit b = true) (hk : k + cs.length < c.bound)
    (hlen : cs ≠ [] → req.off + k + cs.length ≤ s.len) :
    beats (cs.map .readAnswer ++ es) (s.withPhase (c.ask req s.len acc k)) =
      beats es (s.withPhase (c.ask req s.len (gather acc k cs) (k + cs.length))) := by
  induction cs generalizing acc k with
  | nil => rfl
  | cons b cs ih =>
    rw [List.length_cons] at hk hlen
    have hlt := hlen (List.cons_ne_nil b cs)
    have hread := beat_readAnswer hc b (s.withPhase_phase (c.reading req acc k))
    rw [afterByte_more (hcont b List.mem_cons_self) (by omega)] at hread
    rw [ask_reading (by omega), List.map_cons, List.cons_append, beats_cons hread,
      List.length_cons, ← Nat.add_assoc, Nat.add_right_comm]
    exact ih (fun b hb => hcont b (List.mem_cons_of_mem _ hb)) (by omega) fun _ => by omega

/-- Continuation bytes and a last one, answered by the read port, give the response that byte leads to. -/
theorem beats_last {rsp : Response} (hcont : ∀ b ∈ cs, contBit b = true) (hk : cs.length < c.bound)
    (hlen : req.off + cs.length < s.len)
    (hafter : c.afterByte req s.len (gather 0#w 0 cs) cs.length b = .respond req rsp) :
    beats ((cs ++ [b]).map .readAnswer ++ [.takeResponse]) (s.withPhase (c.ask req s.len 0#w 0)) =
      .next ((s.withPhase .idle).respond rsp) := by
  have hread := beat_readAnswer hc b
    (s.withPhase_phase (c.reading req (gather 0#w 0 cs) cs.length))
  rw [State.withPhase_len, hafter] at hread
  rw [List.map_append, List.append_assoc, beats_continue hc hcont (by omega) fun _ => by omega,
    Nat.zero_add, ask_reading hlen, List.map_singleton, List.singleton_append, beats_cons hread]
  rfl

/-- (a) A clear continuation bit within the bound gives a value. -/
theorem answers_value (hcont : ∀ b ∈ cs, contBit b = true) (hstop : contBit b = false)
    (hk : cs.length < c.bound) (hlen : req.off + cs.length < s.len) :
    ∃ rsp, rsp.status = .ok ∧ c.Answers s req (cs ++ [b]) rsp := by
  refine ⟨_, hc.value_status _ _ _, hc.value_answers _ (by omega) hk,
    beats_last hc hcont hk hlen (afterByte_stop hstop), fun s' hl hm => ?_⟩
  refine exec_of_decodeLoop_value hc.toLawful ?_
  rw [hm, hl, decodeLoop_ofBytes_append hcont hk.le fun _ => hlen.le]
  refine decodeLoop_stop _ (by omega) hlen ?_ hstop
  rw [Memory.read_ofBytes_add, List.getElem?_concat_length]

/-- (b) As many continuation bytes as the width allows give OVERLONG. -/
theorem answers_overlong {bs : List Byte} (hcont : ∀ b ∈ bs, contBit b = true)
    (hk : bs.length = c.bound) (hlen : req.off + bs.length ≤ s.len) :
    ∃ rsp, rsp.status = .overlong ∧ c.Answers s req bs rsp := by
  have hpos := hc.bound_pos
  refine ⟨.fault .overlong req.off, rfl, hc.fault_answers _ _, ?_, fun s' hl hm => ?_⟩
  · have hne : bs ≠ [] := List.ne_nil_of_length_pos (by omega)
    obtain ⟨cs, b, rfl⟩ := (List.eq_nil_or_concat' bs).resolve_left hne
    rw [List.length_append, List.length_singleton] at hk hlen
    exact beats_last hc (fun b hb => hcont b (List.mem_append_left _ hb)) (by omega) (by omega)
      (afterByte_overlong (hcont b (by simp)) hk)
  · refine exec_of_decodeLoop_raised hc.toLawful ?_
    have := decodeLoop_ofBytes_append (w := w) (bs := []) hcont hk.le fun _ => hlen
    rw [List.append_nil, hk, Nat.sub_self] at this
    rw [hm, hl, this]
    rfl

/-- (c) Fewer continuation bytes, up to LEN, give TRUNCATED. -/
theorem answers_truncated {bs : List Byte} (hcont : ∀ b ∈ bs, contBit b = true)
    (hk : bs.length < c.bound) (hlen : bs ≠ [] → req.off + bs.length ≤ s.len)
    (hend : s.len ≤ req.off + bs.length) :
    ∃ rsp, rsp.status = .truncated ∧ c.Answers s req bs rsp := by
  refine ⟨.fault .truncated req.off, rfl, hc.fault_answers _ _, ?_, fun s' hl hm => ?_⟩
  · rw [beats_continue hc hcont (by omega) hlen, Nat.zero_add, ask_truncated hend]
    rfl
  · refine exec_of_decodeLoop_raised hc.toLawful ?_
    have := decodeLoop_ofBytes_append (w := w) (bs := []) hcont hk.le hlen
    rw [List.append_nil] at this
    rw [hm, hl, this]
    exact decodeLoop_truncated _ (by omega) hend

/-- The three ways the bytes can end. -/
theorem answers_of_ending {bs : List Byte} (hlen : bs ≠ [] → req.off + bs.length ≤ s.len)
    (ending : Status)
    (hok : ending = .ok → bs.length ≤ c.bound ∧ ∃ (cs : List Byte) (b : Byte), bs = cs ++ [b] ∧
      (∀ c ∈ cs, contBit c = true) ∧ contBit b = false)
    (hover : ending = .overlong → bs.length = c.bound ∧ ∀ c ∈ bs, contBit c = true)
    (htrunc : ending = .truncated → bs.length < c.bound ∧ s.len ≤ req.off + bs.length ∧
      ∀ c ∈ bs, contBit c = true) :
    ∃ rsp, rsp.status = ending ∧ c.Answers s req bs rsp := by
  cases ending with
  | ok =>
    obtain ⟨hk, cs, b, rfl, hcont, hstop⟩ := hok rfl
    have := hlen (List.append_ne_nil_of_right_ne_nil cs (List.cons_ne_nil b []))
    rw [List.length_append, List.length_singleton] at hk this
    exact answers_value hc hcont hstop (by omega) (by omega)
  | overlong =>
    obtain ⟨hk, hcont⟩ := hover rfl
    have := hc.bound_pos
    exact answers_overlong hc hcont hk (hlen (List.ne_nil_of_length_pos (by omega)))
  | truncated =>
    obtain ⟨hk, hend, hcont⟩ := htrunc rfl
    exact answers_truncated hc hcont hk hlen hend

/-- From the acceptance of the decode on. -/
theorem Answers.accept {bs : List Byte} {rsp : Response} {rs : List Request} {off : Nat}
    (hp : s.phase = .idle) (hr : s.requests = req :: rs) (hdec : decode req = c.vdec off)
    (h : c.Answers (s.withRequests rs) req bs rsp) :
    rsp.answers (decode req) ∧
      beats (.accept :: bs.map .readAnswer ++ [.takeResponse]) s =
        .next { s with requests := rs, responses := s.responses ++ [rsp] } ∧
      exec (decode req) { s with inseq := Memory.ofBytes req.off bs, requests := rs } =
        .next { s with inseq := Memory.ofBytes req.off bs, requests := rs,
                       responses := s.responses ++ [rsp] } := by
  obtain rfl := hc.off_eq hdec
  obtain ⟨hanswers, hbeats, hexec⟩ := h
  have haccept := beat_accept hp hr
  rw [hdec, hc.start_vdec] at haccept
  rw [State.withPhase_self (s := s.withRequests rs) hp] at hbeats
  rw [hdec]
  exact ⟨hanswers, (beats_cons haccept).trans hbeats, hexec _ rfl rfl⟩

end Codec

/-- Settles O39: for each ending the read beats and the loop on an input with these bytes give one response. -/
theorem decodeUsesTheBytesTheReadPortReturned : Obligations.DecodeUsesTheBytesTheReadPortReturned := by
  intro s r rs bs n hp hr hwidth hlen ending hok hover htrunc
  rcases hwidth with ⟨⟨off, hdec⟩, rfl⟩ | ⟨⟨off, hdec⟩, rfl⟩
  · obtain ⟨rsp, hst, h⟩ := Codec.answers_of_ending codec32_beatLawful (s := s.withRequests rs) hlen
      ending hok hover htrunc
    exact ⟨rsp, hst, Codec.Answers.accept codec32_beatLawful hp hr hdec h⟩
  · obtain ⟨rsp, hst, h⟩ := Codec.answers_of_ending codec64_beatLawful (s := s.withRequests rs) hlen
      ending hok hover htrunc
    exact ⟨rsp, hst, Codec.Answers.accept codec64_beatLawful hp hr hdec h⟩

end Sys2Proof.Machine
end

section
/-! SUPPORT. The output signals (spec/10_state.md R12, R14, R15, R21; spec/93_implementation_defined.md U8): what each
working state drives, and the host's moves the model refuses. -/

namespace Sys2Proof.Machine

theorem Status.code_ne_three (st : Status) : st.code ≠ 3#2 := by
  cases st <;> decide

/-! The wires, working state by working state. -/

section Wires

variable {s : State} {req : Request} {k : Nat} (instant : Nat)

theorem State.wires_idle (hp : s.phase = .idle) :
    s.wires instant = { quietWires instant s.offw with reqReady := true } := by
  rw [wires, hp]

theorem State.wires_encode32 {u : BitVec 32} (hp : s.phase = .encode32 req u k) : s.wires instant =
    { quietWires instant s.offw with apValid := true, apByte := nextByte u } := by
  rw [wires, hp]

theorem State.wires_encode64 {u : BitVec 64} (hp : s.phase = .encode64 req u k) : s.wires instant =
    { quietWires instant s.offw with apValid := true, apByte := nextByte u } := by
  rw [wires, hp]

theorem State.wires_decode32 {acc : BitVec 32} (hp : s.phase = .decode32 req acc k) : s.wires instant =
    { quietWires instant s.offw with rdValid := true, rdIdx := req.off + k } := by
  rw [wires, hp]

theorem State.wires_decode64 {acc : BitVec 64} (hp : s.phase = .decode64 req acc k) : s.wires instant =
    { quietWires instant s.offw with rdValid := true, rdIdx := req.off + k } := by
  rw [wires, hp]

theorem State.wires_respond {rsp : Response} (hp : s.phase = .respond req rsp) : s.wires instant =
    { quietWires instant s.offw with
      rspValid := true
      rspStatus := rsp.status.code
      rspVal := rsp.val.getD (onBus req.op (Config.freeRspVal instant))
      rspOff := rsp.off.getD (quietWires instant s.offw).rspOff
      rspCnt := (rsp.cnt.map (BitVec.ofNat 4)).getD (Config.freeRspCnt instant) } := by
  rw [wires, hp]
  rfl

end Wires

theorem quietWires_rspOff_lt (instant offw : Nat) : (quietWires instant offw).rspOff < 2 ^ offw :=
  Nat.mod_lt _ (Nat.two_pow_pos offw)

theorem quietWires_rdIdx_lt (instant offw : Nat) : (quietWires instant offw).rdIdx < 2 ^ offw :=
  Nat.mod_lt _ (Nat.two_pow_pos offw)

/-- The offset offered fits the port, whether the response has one or not. -/
theorem Response.off_getD_lt {rsp : Response} {offw o : Nat} (h : rsp.wf offw) (ho : o < 2 ^ offw) :
    rsp.off.getD o < 2 ^ offw := by
  cases rsp with
  | dec32 v o' k => exact h.2.2
  | dec64 v o' k => exact h.2.2
  | fault f o' => exact h
  | _ => exact ho

/-- A response with a 64-bit value answers a command whose op code has `w64` set (spec/30_encoding.md R50). -/
theorem w64_of_answers {req : Request} {rsp : Response} (h : rsp.answers (decode req))
    (h64 : (∃ v, rsp = .zz64 v) ∨ ∃ v o k, rsp = .dec64 v o k) : req.op.getLsbD 0 = true := by
  rw [op_eq_of_decode_eq rfl]
  rcases h64 with ⟨v, rfl⟩ | ⟨v, o, k, rfl⟩
  all_goals
    cases hi : decode req with
    | vdec64 | zzenc64 | zzdec64 => simp [encode]
    | _ => rw [hi] at h; exact h.elim

/-- The upper half of the value bus is zero in every response of a 32-bit operation (U8). -/
theorem Response.val_upper {req : Request} {rsp : Response} (h : rsp.answers (decode req))
    (hop : req.op.getLsbD 0 = false) (free : BitVec 64) :
    (rsp.val.getD (onBus req.op free)).extractLsb' 32 32 = 0#32 := by
  have hbus : onBus req.op free = bus32 (free.setWidth 32) := by rw [onBus, hop]; rfl
  cases rsp with
  | zz32 v => exact bus32_upper v
  | dec32 v o k => exact bus32_upper v
  | zz64 v => exact absurd (w64_of_answers h (.inl ⟨v, rfl⟩)) (Bool.eq_false_iff.1 hop)
  | dec64 v o k => exact absurd (w64_of_answers h (.inr ⟨v, o, k, rfl⟩)) (Bool.eq_false_iff.1 hop)
  | enc k => exact (congrArg _ hbus).trans (bus32_upper _)
  | fault f o => exact (congrArg _ hbus).trans (bus32_upper _)

/-- Settles O35: each signal is the response's own field, or the bus value U8 leaves free below its upper half. -/
theorem responsePortCarriesTheResponse : Obligations.ResponsePortCarriesTheResponse := by
  intro instant s req
  refine ⟨fun v hp => ?_, fun v hp => ?_, fun k hp => ?_, fun v o k hp => ?_, fun v o k hp => ?_,
    fun o hp => ?_, fun o hp => ?_, fun rsp hp h hop => ?_⟩
  all_goals rw [State.wires_respond instant hp]
  · exact ⟨rfl, rfl, bus32_eq_append v⟩
  · exact ⟨rfl, rfl, rfl⟩
  · exact ⟨rfl, rfl, rfl⟩
  · exact ⟨rfl, rfl, bus32_eq_append v, rfl, rfl⟩
  · exact ⟨rfl, rfl, rfl, rfl, rfl⟩
  · exact ⟨rfl, rfl, rfl, rfl⟩
  · exact ⟨rfl, rfl, rfl, rfl⟩
  · exact Response.val_upper h hop _

/-- Settles O36: each working state raises one signal, and the invariant bounds what it drives. -/
theorem portsKeepTheCoresPromises : Obligations.PortsKeepTheCoresPromises := by
  intro instant s hinv
  have hphase := hinv.phase_wf
  have hlen := hinv.len_lt
  have hoff := quietWires_rspOff_lt instant s.offw
  have hidx := quietWires_rdIdx_lt instant s.offw
  rcases hp : s.phase with _ | ⟨req, u, k⟩ | ⟨req, u, k⟩ | ⟨req, acc, k⟩ | ⟨req, acc, k⟩ | ⟨req, rsp⟩
  case idle =>
    rw [State.wires_idle instant hp]
    exact ⟨iff_of_true rfl rfl, rfl, nofun, nofun, hoff, hidx⟩
  case encode32 =>
    rw [State.wires_encode32 instant hp]
    exact ⟨iff_of_false nofun nofun, rfl, nofun, nofun, hoff, hidx⟩
  case encode64 =>
    rw [State.wires_encode64 instant hp]
    exact ⟨iff_of_false nofun nofun, rfl, nofun, nofun, hoff, hidx⟩
  case decode32 =>
    obtain ⟨-, -, hk, hbelow, -⟩ := codec32_beatLawful.reading_wf.1 (hp ▸ hphase)
    rw [State.wires_decode32 instant hp]
    exact ⟨iff_of_false nofun nofun, rfl, nofun,
      fun _ => ⟨hbelow, req, k, rfl, .inl ⟨acc, rfl, hk⟩⟩, hoff, hbelow.trans hlen⟩
  case decode64 =>
    obtain ⟨-, -, hk, hbelow, -⟩ := codec64_beatLawful.reading_wf.1 (hp ▸ hphase)
    rw [State.wires_decode64 instant hp]
    exact ⟨iff_of_false nofun nofun, rfl, nofun,
      fun _ => ⟨hbelow, req, k, rfl, .inr ⟨acc, rfl, hk⟩⟩, hoff, hbelow.trans hlen⟩
  case respond =>
    obtain ⟨-, -, hrsp⟩ : (Phase.respond req rsp).wf s.offw s.len := hp ▸ hphase
    rw [State.wires_respond instant hp]
    exact ⟨iff_of_false nofun nofun, rfl, fun _ => rsp.status.code_ne_three, nofun,
      Response.off_getD_lt hrsp hoff, hidx⟩

/-- Settles O37: reset makes the working state idle and touches nothing else. -/
theorem resetLeavesTheCoreIdle : Obligations.ResetLeavesTheCoreIdle := by
  refine ⟨fun instant s => ⟨s.resetCore, rfl, rfl, ?_⟩, rfl⟩
  rw [State.wires_idle instant s.resetCore_phase]
  exact ⟨rfl, rfl, rfl, rfl, rfl, rfl, rfl, rfl, rfl, rfl, rfl⟩

/-- A busy core accepts nothing (spec/10_state.md R22). -/
theorem acceptBeat_busy {s : State} (hp : s.phase ≠ .idle) :
    s.acceptBeat = .refused .handshakeNotOffered := by
  rw [State.acceptBeat]
  cases h : s.phase with
  | idle => exact absurd h hp
  | _ => rfl

/-- Settles O40: the first two are guards of `beat`, the third the acceptance of a busy core. -/
theorem forbiddenHostMovesAreRefused : Obligations.ForbiddenHostMovesAreRefused := fun _ =>
  ⟨fun h _ _ => if_pos h, fun h _ => if_pos h, acceptBeat_busy⟩

end Sys2Proof.Machine
end
